-- ==== Sys2Proof/Word.lean ====
section
/-! DEFINITION. The widths of the machine (`spec/00_scope.md` R7, R10): bytes, 16-bit words, 12-bit
addresses in an opcode, and the 4-bit fields that name registers, keys and sprite heights. -/

namespace Sys2Proof

/-- An 8-bit value: a general register, a timer, a cell of memory (R7 `XLEN`, `TIMER_BITS`). -/
abbrev Byte := BitVec 8

/-- A 16-bit value: an opcode, I, PC, a stack slot (R7 `ILEN`, `I_BITS`, `PC_BITS`). -/
abbrev Word := BitVec 16

/-- A 4-bit field of an opcode (R10 "a nibble is 4 bits"). -/
abbrev Nibble := BitVec 4

/-- The 12-bit address immediate `nnn` of an opcode (R81). -/
abbrev Addr := BitVec 12

/-- A register number, the field `x` or `y`: every value names one of V0 to VF (R20). -/
abbrev Reg := Nibble

/-- Register 15, the flag register (R20, R21). -/
abbrev VF : Reg := 0xF#4

end Sys2Proof
end

