-- ==== Sys2Proof/Syntax.lean ====
section
/-! DEFINITION. The instructions: one constructor per row of `spec/opcode_table.json`, in the table's
order (`spec/30_encoding.md` R85). Operands are the fields of R81. `ign` holds the bits of the
opcode that R87 calls ignored, and `w` the whole word of a no-op: they take no part in any meaning
and are kept so that no bit of an encoding is dropped (log 9). -/

namespace Sys2Proof

/-- An instruction of CORE (R85). -/
inductive Instr where
  | cls (ign : BitVec 8)
  | ret (ign : BitVec 8)
  | jp (nnn : Addr)
  | call (nnn : Addr)
  | seImm (x : Reg) (kk : Byte)
  | sneImm (x : Reg) (kk : Byte)
  | seReg (x y : Reg) (ign : Nibble)
  | ldImm (x : Reg) (kk : Byte)
  | addImm (x : Reg) (kk : Byte)
  | ldReg (x y : Reg)
  | orReg (x y : Reg)
  | andReg (x y : Reg)
  | xorReg (x y : Reg)
  | addReg (x y : Reg)
  | subReg (x y : Reg)
  | shr (x y : Reg)
  | subnReg (x y : Reg)
  | shl (x y : Reg)
  | sneReg (x y : Reg) (ign : Nibble)
  | ldI (nnn : Addr)
  | jpV0 (nnn : Addr)
  | rnd (x : Reg) (kk : Byte)
  | drw (x y : Reg) (n : Nibble)
  | skp (x : Reg) (ign : Nibble)
  | sknp (x : Reg) (ign : Nibble)
  | ldVxDt (x : Reg)
  | ldVxK (x : Reg)
  | ldDtVx (x : Reg)
  | ldStVx (x : Reg)
  | addI (x : Reg)
  | ldF (x : Reg)
  | ldB (x : Reg)
  | dump (x : Reg)
  | load (x : Reg)
  | nop (w : Word)
  deriving DecidableEq, Repr

end Sys2Proof
end

