-- ==== Sys2Proof/WellFormed.lean ====
section
/-! DEFINITION. Well-formed instructions. The widths of the fields rule out every bad operand but one:
a no-op's word must be a word of the no-op space, or it would be another instruction's word. -/

namespace Sys2Proof

/-- The no-op space, listed by family as `spec/30_encoding.md` R86 lists it. -/
def noOpWord (w : Word) : Bool :=
  let op := (w.extractLsb' 12 4).toNat
  let sub4 := (w.extractLsb' 0 4).toNat
  let sub8 := (w.extractLsb' 0 8).toNat
  (op == 0x0 && !([0x0, 0xE].contains sub4))
    || (op == 0x8 && [0x8, 0x9, 0xA, 0xB, 0xC, 0xD, 0xF].contains sub4)
    || (op == 0xE && !([0x1, 0xE].contains sub4))
    || (op == 0xF && !([0x07, 0x0A, 0x15, 0x18, 0x1E, 0x29, 0x33, 0x55, 0x65].contains sub8))

/-- An instruction is well formed when its fields are values its encoding admits. Every register
number and immediate is (R20, R83); a no-op carries a word of the no-op space (R86). -/
def Instr.wellFormed : Instr → Bool
  | .cls _ => true
  | .ret _ => true
  | .jp _ => true
  | .call _ => true
  | .seImm _ _ => true
  | .sneImm _ _ => true
  | .seReg _ _ _ => true
  | .ldImm _ _ => true
  | .addImm _ _ => true
  | .ldReg _ _ => true
  | .orReg _ _ => true
  | .andReg _ _ => true
  | .xorReg _ _ => true
  | .addReg _ _ => true
  | .subReg _ _ => true
  | .shr _ _ => true
  | .subnReg _ _ => true
  | .shl _ _ => true
  | .sneReg _ _ _ => true
  | .ldI _ => true
  | .jpV0 _ => true
  | .rnd _ _ => true
  | .drw _ _ _ => true
  | .skp _ _ => true
  | .sknp _ _ => true
  | .ldVxDt _ => true
  | .ldVxK _ => true
  | .ldDtVx _ => true
  | .ldStVx _ => true
  | .addI _ => true
  | .ldF _ => true
  | .ldB _ => true
  | .dump _ => true
  | .load _ => true
  | .nop w => noOpWord w

end Sys2Proof
end

