-- ==== Sys2Proof/Decode.lean ====
section
/-! DEFINITION. The decoder, the opcode map and the encoder (`spec/30_encoding.md`). The decoder is the
two-level dispatcher of R84; the opcode map is R85's list of masks and matches; the encoder
assembles the formats of R82. The opcode numbers are the spec's (PRESUMED there from general
knowledge, GK1; log 10), and the dispatcher examines only the bits R84 names (D1; log 9). -/

namespace Sys2Proof

/-! ## Fields of an opcode (R81) -/

/-- `op`, bits 15:12, the primary nibble. -/
def Field.op (w : Word) : Nibble := w.extractLsb' 12 4
/-- `x`, bits 11:8. -/
def Field.x (w : Word) : Reg := w.extractLsb' 8 4
/-- `y`, bits 7:4. -/
def Field.y (w : Word) : Reg := w.extractLsb' 4 4
/-- `n`, bits 3:0: the sprite height, and the secondary nibble `sub4`. -/
def Field.n (w : Word) : Nibble := w.extractLsb' 0 4
/-- `kk`, bits 7:0: the 8-bit immediate, and the secondary byte `sub8`. -/
def Field.kk (w : Word) : Byte := w.extractLsb' 0 8
/-- `nnn`, bits 11:0. -/
def Field.nnn (w : Word) : Addr := w.extractLsb' 0 12
/-- Bits 11:4, which format `Z` ignores (R82, R87). -/
def Field.ignZ (w : Word) : BitVec 8 := w.extractLsb' 4 8

/-! ## The dispatcher (R84) -/

/-- `table0`, keyed by the secondary nibble. -/
def decodeFamily0 (w : Word) : Instr :=
  match (Field.n w).toNat with
  | 0x0 => .cls (Field.ignZ w)
  | 0xE => .ret (Field.ignZ w)
  | _ => .nop w

/-- `table8`, keyed by the secondary nibble. -/
def decodeFamily8 (w : Word) : Instr :=
  match (Field.n w).toNat with
  | 0x0 => .ldReg (Field.x w) (Field.y w)
  | 0x1 => .orReg (Field.x w) (Field.y w)
  | 0x2 => .andReg (Field.x w) (Field.y w)
  | 0x3 => .xorReg (Field.x w) (Field.y w)
  | 0x4 => .addReg (Field.x w) (Field.y w)
  | 0x5 => .subReg (Field.x w) (Field.y w)
  | 0x6 => .shr (Field.x w) (Field.y w)
  | 0x7 => .subnReg (Field.x w) (Field.y w)
  | 0xE => .shl (Field.x w) (Field.y w)
  | _ => .nop w

/-- `tableE`, keyed by the secondary nibble. -/
def decodeFamilyE (w : Word) : Instr :=
  match (Field.n w).toNat with
  | 0x1 => .sknp (Field.x w) (Field.y w)
  | 0xE => .skp (Field.x w) (Field.y w)
  | _ => .nop w

/-- `tableF`, keyed by the low byte. -/
def decodeFamilyF (w : Word) : Instr :=
  match (Field.kk w).toNat with
  | 0x07 => .ldVxDt (Field.x w)
  | 0x0A => .ldVxK (Field.x w)
  | 0x15 => .ldDtVx (Field.x w)
  | 0x18 => .ldStVx (Field.x w)
  | 0x1E => .addI (Field.x w)
  | 0x29 => .ldF (Field.x w)
  | 0x33 => .ldB (Field.x w)
  | 0x55 => .dump (Field.x w)
  | 0x65 => .load (Field.x w)
  | _ => .nop w

/-- `dispatch(opcode)` (R84, R103): total on all 65536 words; a key with no entry is the no-op. The
last arm is family F, the only value of a nibble left. -/
def decode (w : Word) : Instr :=
  match (Field.op w).toNat with
  | 0x0 => decodeFamily0 w
  | 0x1 => .jp (Field.nnn w)
  | 0x2 => .call (Field.nnn w)
  | 0x3 => .seImm (Field.x w) (Field.kk w)
  | 0x4 => .sneImm (Field.x w) (Field.kk w)
  | 0x5 => .seReg (Field.x w) (Field.y w) (Field.n w)
  | 0x6 => .ldImm (Field.x w) (Field.kk w)
  | 0x7 => .addImm (Field.x w) (Field.kk w)
  | 0x8 => decodeFamily8 w
  | 0x9 => .sneReg (Field.x w) (Field.y w) (Field.n w)
  | 0xA => .ldI (Field.nnn w)
  | 0xB => .jpV0 (Field.nnn w)
  | 0xC => .rnd (Field.x w) (Field.kk w)
  | 0xD => .drw (Field.x w) (Field.y w) (Field.n w)
  | 0xE => decodeFamilyE w
  | _ => decodeFamilyF w

/-- Why a byte string is no instruction. -/
inductive DecodeError where
  /-- Fewer than two bytes: every instruction is two bytes long (R80). Safe: nothing is decoded. -/
  | truncated
  deriving DecidableEq, Repr

/-- `hi ++ lo`: two bytes of ascending addresses as one opcode (R52: big-endian). -/
def joinBytes (hi lo : Byte) : Word := hi ++ lo

/-- The first instruction of a byte string, high byte first (R80, R52), and the bytes after it. The
only byte strings refused are those too short to hold an opcode (R86: no word is illegal;
log 19). -/
def decodeBytes : List Byte → Except DecodeError (Instr × List Byte)
  | hi :: lo :: rest => .ok (decode (joinBytes hi lo), rest)
  | [_] => .error .truncated
  | [] => .error .truncated

/-- The two bytes that store an opcode, in ascending addresses (R52). -/
def wordBytes (w : Word) : List Byte := [w.extractLsb' 8 8, w.extractLsb' 0 8]

/-- The opcode made of the low `nbits` bits of `w`, every higher bit zero. -/
def tableWord (nbits w : Nat) : Word := BitVec.ofNat 16 (w % 2 ^ nbits)

/-- The instruction read from the table's word `w` of `nbits` bits, stored as the machine stores an
opcode. -/
def decodeTableWord (nbits w : Nat) : Option Instr :=
  match decodeBytes (wordBytes (tableWord nbits w)) with
  | .ok (i, _) => some i
  | .error _ => none

/-! ## The opcode map (R85) -/

/-- A row of R85: an opcode `w` selects it when `w and mask = value`. -/
structure Row where
  mask : Word
  value : Word
  deriving DecidableEq, Repr

/-- The rows of R85 for families 0 to 7. -/
def opcodeRowsLow : List Row :=
  [⟨0xF00F#16, 0x0000#16⟩, ⟨0xF00F#16, 0x000E#16⟩, ⟨0xF000#16, 0x1000#16⟩, ⟨0xF000#16, 0x2000#16⟩,
   ⟨0xF000#16, 0x3000#16⟩, ⟨0xF000#16, 0x4000#16⟩, ⟨0xF000#16, 0x5000#16⟩, ⟨0xF000#16, 0x6000#16⟩,
   ⟨0xF000#16, 0x7000#16⟩]

/-- The rows of R85 for family 8. -/
def opcodeRows8 : List Row :=
  [⟨0xF00F#16, 0x8000#16⟩, ⟨0xF00F#16, 0x8001#16⟩, ⟨0xF00F#16, 0x8002#16⟩, ⟨0xF00F#16, 0x8003#16⟩,
   ⟨0xF00F#16, 0x8004#16⟩, ⟨0xF00F#16, 0x8005#16⟩, ⟨0xF00F#16, 0x8006#16⟩, ⟨0xF00F#16, 0x8007#16⟩,
   ⟨0xF00F#16, 0x800E#16⟩]

/-- The rows of R85 for families 9 to F. -/
def opcodeRowsHigh : List Row :=
  [⟨0xF000#16, 0x9000#16⟩, ⟨0xF000#16, 0xA000#16⟩, ⟨0xF000#16, 0xB000#16⟩, ⟨0xF000#16, 0xC000#16⟩,
   ⟨0xF000#16, 0xD000#16⟩, ⟨0xF00F#16, 0xE00E#16⟩, ⟨0xF00F#16, 0xE001#16⟩, ⟨0xF0FF#16, 0xF007#16⟩,
   ⟨0xF0FF#16, 0xF00A#16⟩, ⟨0xF0FF#16, 0xF015#16⟩, ⟨0xF0FF#16, 0xF018#16⟩, ⟨0xF0FF#16, 0xF01E#16⟩,
   ⟨0xF0FF#16, 0xF029#16⟩, ⟨0xF0FF#16, 0xF033#16⟩, ⟨0xF0FF#16, 0xF055#16⟩, ⟨0xF0FF#16, 0xF065#16⟩]

/-- The 34 rows of R85, in its order; the no-op is what selects none of them. -/
def opcodeMap : List Row := opcodeRowsLow ++ (opcodeRows8 ++ opcodeRowsHigh)

/-- The opcode `w` selects the row (R85). -/
def Row.selects (r : Row) (w : Word) : Bool := w &&& r.mask == r.value

/-- The row of R85 that an instruction stands in; none for the no-op. -/
def Instr.row : Instr → Option Row
  | .cls _ => some ⟨0xF00F#16, 0x0000#16⟩
  | .ret _ => some ⟨0xF00F#16, 0x000E#16⟩
  | .jp _ => some ⟨0xF000#16, 0x1000#16⟩
  | .call _ => some ⟨0xF000#16, 0x2000#16⟩
  | .seImm _ _ => some ⟨0xF000#16, 0x3000#16⟩
  | .sneImm _ _ => some ⟨0xF000#16, 0x4000#16⟩
  | .seReg _ _ _ => some ⟨0xF000#16, 0x5000#16⟩
  | .ldImm _ _ => some ⟨0xF000#16, 0x6000#16⟩
  | .addImm _ _ => some ⟨0xF000#16, 0x7000#16⟩
  | .ldReg _ _ => some ⟨0xF00F#16, 0x8000#16⟩
  | .orReg _ _ => some ⟨0xF00F#16, 0x8001#16⟩
  | .andReg _ _ => some ⟨0xF00F#16, 0x8002#16⟩
  | .xorReg _ _ => some ⟨0xF00F#16, 0x8003#16⟩
  | .addReg _ _ => some ⟨0xF00F#16, 0x8004#16⟩
  | .subReg _ _ => some ⟨0xF00F#16, 0x8005#16⟩
  | .shr _ _ => some ⟨0xF00F#16, 0x8006#16⟩
  | .subnReg _ _ => some ⟨0xF00F#16, 0x8007#16⟩
  | .shl _ _ => some ⟨0xF00F#16, 0x800E#16⟩
  | .sneReg _ _ _ => some ⟨0xF000#16, 0x9000#16⟩
  | .ldI _ => some ⟨0xF000#16, 0xA000#16⟩
  | .jpV0 _ => some ⟨0xF000#16, 0xB000#16⟩
  | .rnd _ _ => some ⟨0xF000#16, 0xC000#16⟩
  | .drw _ _ _ => some ⟨0xF000#16, 0xD000#16⟩
  | .skp _ _ => some ⟨0xF00F#16, 0xE00E#16⟩
  | .sknp _ _ => some ⟨0xF00F#16, 0xE001#16⟩
  | .ldVxDt _ => some ⟨0xF0FF#16, 0xF007#16⟩
  | .ldVxK _ => some ⟨0xF0FF#16, 0xF00A#16⟩
  | .ldDtVx _ => some ⟨0xF0FF#16, 0xF015#16⟩
  | .ldStVx _ => some ⟨0xF0FF#16, 0xF018#16⟩
  | .addI _ => some ⟨0xF0FF#16, 0xF01E#16⟩
  | .ldF _ => some ⟨0xF0FF#16, 0xF029#16⟩
  | .ldB _ => some ⟨0xF0FF#16, 0xF033#16⟩
  | .dump _ => some ⟨0xF0FF#16, 0xF055#16⟩
  | .load _ => some ⟨0xF0FF#16, 0xF065#16⟩
  | .nop _ => none

/-! ## The encoder (R82) -/

/-- Format `Z`: `op` = 0, ignored bits, `sub4`. -/
def Format.z (ign : BitVec 8) (sub4 : Nibble) : Word := 0x0#4 ++ ign ++ sub4
/-- Format `A`: `op`, `nnn`. -/
def Format.a (op : Nibble) (nnn : Addr) : Word := op ++ nnn
/-- Formats `XK` and `XB`: `op`, `x`, and `kk` or `sub8`. -/
def Format.xk (op : Nibble) (x : Reg) (kk : Byte) : Word := op ++ x ++ kk
/-- Formats `XY`, `XYS`, `XYN` and `XS`: `op`, `x`, `y` (ignored in `XS`), and the low nibble. -/
def Format.xyn (op : Nibble) (x y : Reg) (n : Nibble) : Word := op ++ x ++ y ++ n

/-- The opcode of an instruction (R82, R85). -/
def encode : Instr → Word
  | .cls ign => Format.z ign 0x0#4
  | .ret ign => Format.z ign 0xE#4
  | .jp nnn => Format.a 0x1#4 nnn
  | .call nnn => Format.a 0x2#4 nnn
  | .seImm x kk => Format.xk 0x3#4 x kk
  | .sneImm x kk => Format.xk 0x4#4 x kk
  | .seReg x y ign => Format.xyn 0x5#4 x y ign
  | .ldImm x kk => Format.xk 0x6#4 x kk
  | .addImm x kk => Format.xk 0x7#4 x kk
  | .ldReg x y => Format.xyn 0x8#4 x y 0x0#4
  | .orReg x y => Format.xyn 0x8#4 x y 0x1#4
  | .andReg x y => Format.xyn 0x8#4 x y 0x2#4
  | .xorReg x y => Format.xyn 0x8#4 x y 0x3#4
  | .addReg x y => Format.xyn 0x8#4 x y 0x4#4
  | .subReg x y => Format.xyn 0x8#4 x y 0x5#4
  | .shr x y => Format.xyn 0x8#4 x y 0x6#4
  | .subnReg x y => Format.xyn 0x8#4 x y 0x7#4
  | .shl x y => Format.xyn 0x8#4 x y 0xE#4
  | .sneReg x y ign => Format.xyn 0x9#4 x y ign
  | .ldI nnn => Format.a 0xA#4 nnn
  | .jpV0 nnn => Format.a 0xB#4 nnn
  | .rnd x kk => Format.xk 0xC#4 x kk
  | .drw x y n => Format.xyn 0xD#4 x y n
  | .skp x ign => Format.xyn 0xE#4 x ign 0xE#4
  | .sknp x ign => Format.xyn 0xE#4 x ign 0x1#4
  | .ldVxDt x => Format.xk 0xF#4 x 0x07#8
  | .ldVxK x => Format.xk 0xF#4 x 0x0A#8
  | .ldDtVx x => Format.xk 0xF#4 x 0x15#8
  | .ldStVx x => Format.xk 0xF#4 x 0x18#8
  | .addI x => Format.xk 0xF#4 x 0x1E#8
  | .ldF x => Format.xk 0xF#4 x 0x29#8
  | .ldB x => Format.xk 0xF#4 x 0x33#8
  | .dump x => Format.xk 0xF#4 x 0x55#8
  | .load x => Format.xk 0xF#4 x 0x65#8
  | .nop w => w

end Sys2Proof
end

