-- ==== Sys2Proof/Config.lean ====
section
/-! DEFINITION. The open parameters of the machine (`spec/00_scope.md` R8): the arguments `FONT` and
`STEP_RATE_HZ`, and the free input `rnd`. The default of `FONT` is `Sys2Proof.Machine.font` in
Machine/Ops.lean; `Sys2Proof.Machine.State.resetWith` there takes the parameters. -/

namespace Sys2Proof

/-- The random bytes injected by the host, the free input `rnd` (R8, R152, D12): the byte of the
`k`-th draw. It has no body, so nothing can be proved of any byte of it, and a statement about a
draw holds for every value. (DESIGN CHOICE of form, log 1.) -/
opaque Config.rnd : Nat → Byte

/-- The parameters that a construction of the machine takes as arguments (R8). -/
structure Params where
  /-- `FONT`, the 80 glyph bytes placed at 0x050 to 0x09F (R31, D10, U17). -/
  font : Vector Byte 80
  /-- `STEP_RATE_HZ`, the rate at which the host calls `step`; informational, no rule reads it (R8,
  R270; log 18). -/
  stepRateHz : Nat := 600
  deriving DecidableEq, Repr

end Sys2Proof
end

