-- ==== Sys2Proof/Machine/State.lean ====
section
/-! DEFINITION. The state of CORE (`spec/10_state.md`), the reasons a step can stop, and the state after
reset (R36). -/

namespace Sys2Proof.Machine

/-- MEM (R32): the bytes that differ from the reset contents, by address. Its canonical form is
`Memory.wf` and its reads and writes are in Machine/Ops.lean. (Representation: log 17.) -/
abbrev Memory := List Host.Cell

/-- VID (R30): row `r` is the `r`-th vector entry, and the cell of column `c` is bit number `c` of it
(log 17). -/
abbrev Screen := Vector (BitVec 64) 32

/-- The whole state of the core, under the spec's names (R20 to R36). -/
structure State where
  /-- V0 to VF (R20); V[15] is the flag register (R21). -/
  v : Vector Byte 16
  /-- I, the index register (R22). -/
  i : Word
  /-- PC (R23). -/
  pc : Word
  /-- STK, the 16 slots of return addresses (R24). -/
  stk : Vector Word 16
  /-- SP, the number of return addresses held, 0 to 16 (R25, C1; log 22). -/
  sp : Fin 17
  /-- DT, the delay timer (R26). -/
  dt : Byte
  /-- ST, the sound timer (R27). -/
  st : Byte
  /-- KEY, the 16 key states written by the host, true for pressed (R29). -/
  key : Vector Bool 16
  /-- VID, the 64 by 32 video buffer (R30). -/
  vid : Screen
  /-- MEM, the 4096 bytes (R32). -/
  mem : Memory
  /-- The model's own counter of random bytes drawn, the index of the next free value of
  `Config.rnd` (R8, R152; log 1). No piece of the spec's state. -/
  rndIndex : Nat
  deriving DecidableEq, Repr

/-- Why a step stops (R13, R220, R233). The run ends; no state is offered after it (R226, D5; log 8). -/
inductive Fault where
  /-- `ExecError::StackOverflow`: raised by `CALL` with SP = 16 (R221). Safe. -/
  | stackOverflow
  /-- `ExecError::StackUnderflow`: raised by `RET` with SP = 0 (R222). Safe. -/
  | stackUnderflow
  /-- `ExecError::MemoryFault`: raised by the fetch, `DRW`, `LD B`, `LD [I]` and `LD Vx, [I]` when an
  address they would touch is above 0xFFF (R223). Safe. -/
  | memoryFault
  /-- `unspecified(KeyIndexOutOfRange)`: raised by `SKP` and `SKNP` with V[x] above 15, no error of
  the source but a case it leaves without meaning (R203, R233, U1; log 5). Safe. -/
  | keyIndexOutOfRange
  deriving DecidableEq, Repr

/-- Why an instruction has no meaning in this model. -/
inductive Refusal where
  /-- An instruction whose arm of `exec` has no meaning yet, by its mnemonic; no arm raises it. Safe. -/
  | notModelled (mnemonic : String)
  deriving DecidableEq, Repr

/-- The state after reset (R36, R250, R251): PC is 0x200, as the source states; every other register,
slot, timer, key and cell is zero by the spec's decision D4 (DESIGN CHOICE, log 2); memory has
nothing listed, so it holds `FONT` at its default and zeros (log 3, log 4); any other `FONT` is given
to `State.resetWith` in Machine/Ops.lean (R8). `rndIndex` starts at 0 (log 1). -/
def State.reset : State where
  v := Vector.replicate 16 0#8
  i := 0x0000#16
  pc := 0x0200#16
  stk := Vector.replicate 16 0#16
  sp := 0
  dt := 0#8
  st := 0#8
  key := Vector.replicate 16 false
  vid := Vector.replicate 32 0#64
  mem := []
  rndIndex := 0

end Sys2Proof.Machine
end

