-- ==== Sys2Proof/Machine/Ops.lean ====
section
/-! DEFINITION. The named operations over memory, registers, the screen and the keypad; the phases of the
cycle that are not an instruction (fetch, advance, tick); and the one operation that ends a step
with an error. -/

namespace Sys2Proof.Machine

open Host (Outcome)

/-! ## Memory (`spec/20_memory.md`) -/

/-- Glyphs 0 to 3 of `FONT` (R31). -/
def fontGlyphs0 : List Byte :=
  [0xF0#8, 0x90#8, 0x90#8, 0x90#8, 0xF0#8,  0x20#8, 0x60#8, 0x20#8, 0x20#8, 0x70#8,
   0xF0#8, 0x10#8, 0xF0#8, 0x80#8, 0xF0#8,  0xF0#8, 0x10#8, 0xF0#8, 0x10#8, 0xF0#8]

/-- Glyphs 4 to 7 of `FONT` (R31). -/
def fontGlyphs4 : List Byte :=
  [0x90#8, 0x90#8, 0xF0#8, 0x10#8, 0x10#8,  0xF0#8, 0x80#8, 0xF0#8, 0x10#8, 0xF0#8,
   0xF0#8, 0x80#8, 0xF0#8, 0x90#8, 0xF0#8,  0xF0#8, 0x10#8, 0x20#8, 0x40#8, 0x40#8]

/-- Glyphs 8 to B of `FONT` (R31). -/
def fontGlyphs8 : List Byte :=
  [0xF0#8, 0x90#8, 0xF0#8, 0x90#8, 0xF0#8,  0xF0#8, 0x90#8, 0xF0#8, 0x10#8, 0xF0#8,
   0xF0#8, 0x90#8, 0xF0#8, 0x90#8, 0x90#8,  0xE0#8, 0x90#8, 0xE0#8, 0x90#8, 0xE0#8]

/-- Glyphs C to F of `FONT` (R31). -/
def fontGlyphsC : List Byte :=
  [0xF0#8, 0x80#8, 0x80#8, 0x80#8, 0xF0#8,  0xE0#8, 0x90#8, 0x90#8, 0x90#8, 0xE0#8,
   0xF0#8, 0x80#8, 0xF0#8, 0x80#8, 0xF0#8,  0xF0#8, 0x80#8, 0xF0#8, 0x80#8, 0x80#8]

/-- The default of the open parameter `FONT` (R8), the 80 bytes R31 gives (PRESUMED there from general
knowledge, GK5; log 3). A claim about a glyph's bits rests on this table. -/
def font : List Byte := fontGlyphs0 ++ (fontGlyphs4 ++ (fontGlyphs8 ++ fontGlyphsC))

/-- What an address that memory does not list reads as: the contents after reset (R31, R36) with `FONT`
at its default, at 0x050 to 0x09F (log 3); another `FONT` is listed there (`State.resetWith`); every other byte is 0x00 by the spec's decision D4 (log 4). -/
def unlisted (a : Nat) : Byte :=
  if 0x050 ≤ a ∧ a ≤ 0x09F then font.getD (a - 0x050) 0#8 else 0#8

/-- `MemRead(addr, 1)` (R11, R53), for `addr` up to 0xFFF. -/
def Memory.read : Memory → Nat → Byte
  | [], a => unlisted a
  | (b, w) :: m, a => if b = a then w else Memory.read m a

/-- `MemWrite(addr, 1, v)` (R11, R53), for `addr` up to 0xFFF. The list stays sorted, and a byte that
gets its reset contents back is listed no more. -/
def Memory.write : Memory → Nat → Byte → Memory
  | [], a, v => if v = unlisted a then [] else [(a, v)]
  | (b, w) :: m, a, v =>
    if a < b then (if v = unlisted a then (b, w) :: m else (a, v) :: (b, w) :: m)
    else if a = b then (if v = unlisted a then m else (a, v) :: m)
    else (b, w) :: Memory.write m a v

/-- The canonical form of memory: addresses below 4096 and strictly rising, and no byte equal to what
an unlisted address reads as. -/
def Memory.wf : Memory → Bool
  | [] => true
  | (a, v) :: m =>
    decide (a < 4096) && (v != unlisted a) && m.all (fun c => decide (a < c.1)) && Memory.wf m

/-- Byte stores at ascending addresses from `a` on, in the order of the list (R173, R176, R255). -/
def Memory.writeBytes : Memory → Nat → List Byte → Memory
  | m, _, [] => m
  | m, a, b :: bs => Memory.writeBytes (m.write a b) (a + 1) bs

/-- The `n` bytes from `a` on, in ascending order (R191). -/
def Memory.readBytes (m : Memory) : Nat → Nat → List Byte
  | _, 0 => []
  | a, n + 1 => m.read a :: m.readBytes (a + 1) n

/-! ## Reset with the open parameters (`spec/00_scope.md` R8, `spec/70_reset_and_hazards.md` R250) -/

/-- The parameters at the defaults of R8. -/
def defaultParams : Params where
  font := ⟨⟨font⟩, rfl⟩

/-- The state after reset for given parameters: the 80 bytes of `FONT` lie at 0x050 to 0x09F, and
everything else is as in `State.reset` (R31, R36). With the defaults it is `State.reset`. -/
def State.resetWith (p : Params) : State :=
  { State.reset with mem := Memory.writeBytes State.reset.mem 0x050 p.font.toList }

/-! ## Registers (`spec/10_state.md`) -/

/-- Read of `V[r]` (R20). -/
def State.reg (s : State) (r : Reg) : Byte := s.v[r.toNat]'r.isLt

/-- `V[r] <- b` (R20). -/
def State.setReg (s : State) (r : Reg) (b : Byte) : State := { s with v := s.v.set r.toNat b r.isLt }

/-- Reduction of a value written into PC or I modulo 4096 (R22, R23, D3; log 7). -/
def wrap (n : Nat) : Word := BitVec.ofNat 16 (n % 4096)

/-- `PC <- w`. -/
def State.setPc (s : State) (w : Word) : State := { s with pc := w }

/-- `I <- w`. -/
def State.setI (s : State) (w : Word) : State := { s with i := w }

/-- `PC <- (PC + 2) mod 4096`: the advance of the cycle (R102), and a taken skip (R124). -/
def State.advance (s : State) : State := s.setPc (wrap (s.pc.toNat + 2))

/-- `PC <- (PC - 2) mod 4096`, which undoes the advance (R204); adding 4094 keeps the remainder
non-negative (R10). -/
def State.rollBack (s : State) : State := s.setPc (wrap (s.pc.toNat + 4094))

/-! ## The screen and the keypad -/

/-- `VID[r][c]` (R30). -/
def Screen.cell (vid : Screen) (r : Fin 32) (c : Fin 64) : Bool := vid[r.val].getLsbD c.val

/-- `VID[r][c] <- VID[r][c] xor p` (R191). -/
def Screen.xorCell (vid : Screen) (r : Fin 32) (c : Fin 64) (p : Bool) : Screen :=
  vid.set r.val (vid[r.val] ^^^ (if p then BitVec.twoPow 64 c.val else 0#64))

/-- The screen with every cell 0 (R190). -/
def Screen.blank : Screen := Vector.replicate 32 0#64

/-- `b[7 - col]`: bit 7 of a sprite byte is its leftmost pixel (R191, D9; log 12). -/
def spriteBit (b : Byte) (col : Nat) : Bool := b.getLsbD (7 - col)

/-- One pixel of a draw: the cell at row `r` modulo 32 and column `c` modulo 64 is XORed with `p`, and
`hit` is set when that clears a set cell (R191). -/
def drawPixel (r c : Nat) (p : Bool) (d : Screen × Bool) : Screen × Bool :=
  let row : Fin 32 := ⟨r % 32, Nat.mod_lt _ (by decide)⟩
  let col : Fin 64 := ⟨c % 64, Nat.mod_lt _ (by decide)⟩
  (d.1.xorCell row col p, d.2 || (p && d.1.cell row col))

/-- The eight pixels of one sprite byte, columns 0 to 7 (R191). -/
def drawRow (x0 r : Nat) (b : Byte) (d : Screen × Bool) : Screen × Bool :=
  (List.range 8).foldl (fun d col => drawPixel r (x0 + col) (spriteBit b col) d) d

/-- The rows of a sprite, top row first: `r` is the row of the first byte (R191). -/
def drawRows (x0 : Nat) : Nat → List Byte → Screen × Bool → Screen × Bool
  | _, [], d => d
  | r, b :: bs, d => drawRows x0 (r + 1) bs (drawRow x0 r b d)

/-- `KEY[k]` (R29). -/
def State.keyDown (s : State) (k : Nibble) : Bool := s.key[k.toNat]'k.isLt

/-- The least pressed key, the first hit of an ascending scan (R204, D8; log 11). -/
def State.firstKey (s : State) : Option Nibble :=
  ((List.range 16).map (BitVec.ofNat 4)).find? s.keyDown

/-! ## Errors (`spec/60_exceptions.md` R226) -/

/-- `raise <Error>` (R11, R226): the step ends with the error, handed to the host. There is no trap
vector, no saved state and no handler, and no return from one (R228); what the state is afterwards
is no business of any claim (D5; log 8). Every error of every instruction goes through here. -/
def raise (e : Fault) : Outcome State Fault Refusal := .fault e

/-! ## The phases of the cycle around an instruction (`spec/40_cycle_dispatch.md` R100) -/

/-- The fetch (R101): the two bytes at PC and PC+1, high byte first; none when PC+1 is above 0xFFF. -/
def State.fetch (s : State) : Option Word :=
  if s.pc.toNat + 1 > 0xFFF then none
  else some (joinBytes (s.mem.read s.pc.toNat) (s.mem.read (s.pc.toNat + 1)))

/-- One countdown timer's tick: down by one, and 0 stays 0 (R105). -/
def tickTimer (t : Byte) : Byte := if t = 0#8 then 0#8 else t - 1#8

/-- The timer tick, last phase of every successful step (R105, D11; log 21). -/
def State.tick (s : State) : State := { s with dt := tickTimer s.dt, st := tickTimer s.st }

/-- Apply a phase to a successful outcome; an error passes through. -/
def mapNext (f : State → State) : Outcome State Fault Refusal → Outcome State Fault Refusal
  | .next s => .next (f s)
  | .fault e => .fault e
  | .refused r => .refused r

/-- The next state of an outcome, if there is one. -/
def next? : Outcome State Fault Refusal → Option State
  | .next s => some s
  | .fault _ => none
  | .refused _ => none

/-- The fault of an outcome, if it is one. -/
def fault? : Outcome State Fault Refusal → Option Fault
  | .next _ => none
  | .fault e => some e
  | .refused _ => none

/-- Where `withFetchWord` puts an opcode: at PC when the two bytes there can be fetched, else at the
program origin 0x200 (log 15). -/
def State.fetchPlace (s : State) : Word := if s.pc.toNat + 1 > 0xFFF then 0x0200#16 else s.pc

/-- An opcode stored where the next fetch reads it. -/
def State.placeWord (s : State) (w : Word) : State :=
  { s with pc := s.fetchPlace, mem := s.mem.writeBytes s.fetchPlace.toNat (wordBytes w) }

end Sys2Proof.Machine
end

