-- ==== Sys2Proof/Machine/Operands.lean ====
section
/-! DEFINITION. The operand forms (`spec/30_encoding.md` R83, `spec/43_index_memory.md` R174): register
operands are `State.reg`; the immediates `kk` and `n` are used at their own widths; below are the
address immediate, the index-relative addresses with their bounds check, and the blocks of bytes
the memory instructions move. -/

namespace Sys2Proof.Machine

open Host (Outcome)

/-- `zext_16(nnn)`: the address immediate, zero-extended to PC or I (R83). -/
def zextAddr (nnn : Addr) : Word := nnn.setWidth 16

/-- `EA = I + k`, an unbounded integer from the full 16-bit I, never reduced (R174, R55). -/
def State.ea (s : State) (k : Nat) : Nat := s.i.toNat + k

/-- The bounds check of the index-relative instructions: `last` is the largest offset they touch, and
nothing is written when `I + last` is above 0xFFF (R55, R174, R223). -/
def State.checked (s : State) (last : Nat) (t : State) : Outcome State Fault Refusal :=
  if s.ea last > 0xFFF then raise .memoryFault else .next t

/-- `V[0]` to `V[x]`, the implicit operands of the register dump (R176). -/
def State.regBlock (s : State) (x : Reg) : List Byte := s.v.toList.take (x.toNat + 1)

/-- The register file with `V[k] <- MemRead(I + k, 1)` for `k` from 0 to `x`; the other registers keep
their values (R177). -/
def State.loadedRegs (s : State) (x : Reg) : Vector Byte 16 :=
  Vector.ofFn fun k => if k.val ≤ x.toNat then s.mem.read (s.ea k.val) else s.v[k.val]

/-- The hundreds, tens and units digits of a byte (R173). -/
def bcdDigits (v : Byte) : List Byte := [v / 100#8, v / 10#8 % 10#8, v % 10#8]

/-- `0x050 + 5 * V[x]`: the glyph address, from the whole byte (R172, D23; log 13). -/
def glyphAddress (v : Byte) : Word := BitVec.ofNat 16 (0x050 + 5 * v.toNat)

end Sys2Proof.Machine
end

