-- ==== Sys2Proof/Machine/Control.lean ====
section
/-! DEFINITION. The control transfer instructions (`spec/41_control_transfer.md`). In every meaning PC
already holds the address of the next sequential instruction (R120). -/

namespace Sys2Proof.Machine

open Host (Outcome)

/-- `RET` (R121): `SP <- SP - 1`, `PC <- STK[SP] mod 4096`; the slot keeps its value. With SP = 0 it
raises `StackUnderflow` (R222). -/
def execRet (s : State) : Outcome State Fault Refusal :=
  if h : s.sp.val = 0 then raise .stackUnderflow
  else
    let top := s.sp.val - 1
    .next { s with
      sp := ⟨top, Nat.lt_of_le_of_lt (Nat.sub_le _ _) s.sp.isLt⟩
      pc := wrap (s.stk[top]'(Nat.lt_of_lt_of_le (Nat.sub_one_lt h) (Nat.le_of_lt_succ s.sp.isLt))).toNat }

/-- `JP nnn` (R122). -/
def execJp (nnn : Addr) (s : State) : Outcome State Fault Refusal :=
  .next (s.setPc (zextAddr nnn))

/-- `CALL nnn` (R123): the advanced PC goes to `STK[SP]`. With SP = 16 it raises `StackOverflow`
(R221). -/
def execCall (nnn : Addr) (s : State) : Outcome State Fault Refusal :=
  if h : s.sp.val < 16 then
    .next { s with
      stk := s.stk.set s.sp.val s.pc h
      sp := ⟨s.sp.val + 1, Nat.succ_lt_succ h⟩
      pc := zextAddr nnn }
  else raise .stackOverflow

/-- A skip: `PC <- (PC + 2) mod 4096` when the condition holds (R124). -/
def State.skipIf (s : State) (c : Bool) : State := if c then s.advance else s

/-- `SE Vx, kk` (R124). -/
def execSeImm (x : Reg) (kk : Byte) (s : State) : Outcome State Fault Refusal :=
  .next (s.skipIf (s.reg x == kk))

/-- `SNE Vx, kk` (R125). -/
def execSneImm (x : Reg) (kk : Byte) (s : State) : Outcome State Fault Refusal :=
  .next (s.skipIf (s.reg x != kk))

/-- `SE Vx, Vy` (R126). -/
def execSeReg (x y : Reg) (s : State) : Outcome State Fault Refusal :=
  .next (s.skipIf (s.reg x == s.reg y))

/-- `SNE Vx, Vy` (R127). -/
def execSneReg (x y : Reg) (s : State) : Outcome State Fault Refusal :=
  .next (s.skipIf (s.reg x != s.reg y))

/-- `JP V0, nnn` (R128): the sum is unbounded and then reduced. -/
def execJpV0 (nnn : Addr) (s : State) : Outcome State Fault Refusal :=
  .next (s.setPc (wrap (nnn.toNat + (s.reg 0x0#4).toNat)))

end Sys2Proof.Machine
end

