-- ==== Sys2Proof/Machine/Flags.lean ====
section
/-! DEFINITION. The flag computations (`spec/10_state.md` R21): VF is the only flag, and these are the
values the flag-writing instructions give it. -/

namespace Sys2Proof.Machine

/-- A flag's byte: 0 or 1 and nothing else (R21). -/
def flagByte (b : Bool) : Byte := if b then 1#8 else 0#8

/-- Carry of `ADD Vx, Vy`: the unsigned sum, as an unbounded integer, exceeds 255 (R147). -/
def carry (a b : Byte) : Byte := flagByte (decide (a.toNat + b.toNat > 255))

/-- The inverted borrow of `SUB` and `SUBN`: the minuend is strictly greater (R148, R150,
C11; log 23). -/
def noBorrow (a b : Byte) : Byte := flagByte (decide (a.toNat > b.toNat))

/-- The bit shifted out by `SHR`: bit 0 before the shift (R149). -/
def shiftedOutRight (a : Byte) : Byte := flagByte (a.getLsbD 0)

/-- The bit shifted out by `SHL`: bit 7 before the shift (R151). -/
def shiftedOutLeft (a : Byte) : Byte := flagByte (a.getLsbD 7)

/-- VF first and V[x] second: with `x = 15` the result overwrites the flag (R153, D6; log 6). -/
def State.setFlagThenReg (s : State) (x : Reg) (flag result : Byte) : State :=
  (s.setReg VF flag).setReg x result

end Sys2Proof.Machine
end

