-- ==== Sys2Proof/Machine/Display.lean ====
section
/-! DEFINITION. The display instructions (`spec/44_display.md`). -/

namespace Sys2Proof.Machine

open Host (Outcome)

/-- `CLS` (R190): every cell is 0; VF is left alone. -/
def execCls (s : State) : Outcome State Fault Refusal :=
  .next { s with vid := Screen.blank }

/-- The drawing of `DRW`: the screen after it, and whether it cleared a set cell (R191). V[x] is the
column and V[y] the row of the top-left pixel, both read before VF is written. -/
def State.drawn (s : State) (x y : Reg) (n : Nibble) : Screen × Bool :=
  drawRows (s.reg x).toNat (s.reg y).toNat (s.mem.readBytes (s.ea 0) n.toNat) (s.vid, false)

/-- `DRW Vx, Vy, n` (R191). With `n = 0` nothing is read or drawn and VF is 0 (D24; log 14); otherwise
the last sprite byte, at `I + n - 1`, must not lie above 0xFFF (R223). VF is written once, at the
end. -/
def execDrw (x y : Reg) (n : Nibble) (s : State) : Outcome State Fault Refusal :=
  let t := { s with vid := (s.drawn x y n).1 }.setReg VF (flagByte (s.drawn x y n).2)
  if n.toNat = 0 then .next t else s.checked (n.toNat - 1) t

end Sys2Proof.Machine
end

