-- ==== Sys2Proof/Machine/IndexMemory.lean ====
section
/-! DEFINITION. The index register and memory instructions (`spec/43_index_memory.md`). I is never
changed by an instruction that uses it as an address (R174). -/

namespace Sys2Proof.Machine

open Host (Outcome)

/-- `LD I, nnn` (R170; PRESUMED there from general knowledge, GK4, D2; log 10). -/
def execLdI (nnn : Addr) (s : State) : Outcome State Fault Refusal :=
  .next (s.setI (zextAddr nnn))

/-- `ADD I, Vx` (R171): modulo 4096, and sets no flag. -/
def execAddI (x : Reg) (s : State) : Outcome State Fault Refusal :=
  .next (s.setI (wrap (s.i.toNat + (s.reg x).toNat)))

/-- `LD F, Vx` (R172). -/
def execLdF (x : Reg) (s : State) : Outcome State Fault Refusal :=
  .next (s.setI (glyphAddress (s.reg x)))

/-- `LD B, Vx` (R173): the three decimal digits to I, I+1, I+2. -/
def execLdB (x : Reg) (s : State) : Outcome State Fault Refusal :=
  s.checked 2 { s with mem := s.mem.writeBytes (s.ea 0) (bcdDigits (s.reg x)) }

/-- `LD [I], Vx` (R176): V[0] to V[x] to I and on. -/
def execDump (x : Reg) (s : State) : Outcome State Fault Refusal :=
  s.checked x.toNat { s with mem := s.mem.writeBytes (s.ea 0) (s.regBlock x) }

/-- `LD Vx, [I]` (R177): V[0] to V[x] from I and on. -/
def execLoad (x : Reg) (s : State) : Outcome State Fault Refusal :=
  s.checked x.toNat { s with v := s.loadedRegs x }

end Sys2Proof.Machine
end

