-- ==== Sys2Proof/Machine/KeypadTimers.lean ====
section
/-! DEFINITION. The keypad and timer instructions (`spec/45_keypad_timers.md`). -/

namespace Sys2Proof.Machine

open Host (Outcome)

/-- The key test of `SKP` and `SKNP`: `KEY[V[x]]`, defined for V[x] from 0 to 15. For a greater V[x]
the spec gives the step no meaning and asks for a fault of its own kind (R203, U1; log 5). -/
def State.skipOnKey (s : State) (x : Reg) (pressed : Bool) : Outcome State Fault Refusal :=
  if (s.reg x).toNat > 15 then raise .keyIndexOutOfRange
  else .next (s.skipIf (s.keyDown ((s.reg x).setWidth 4) == pressed))

/-- `SKP Vx` (R200). -/
def execSkp (x : Reg) (s : State) : Outcome State Fault Refusal := s.skipOnKey x true

/-- `SKNP Vx` (R201). -/
def execSknp (x : Reg) (s : State) : Outcome State Fault Refusal := s.skipOnKey x false

/-- `LD Vx, DT` (R202). -/
def execLdVxDt (x : Reg) (s : State) : Outcome State Fault Refusal :=
  .next (s.setReg x s.dt)

/-- `LD Vx, K` (R204): the least pressed key goes to V[x]; with none pressed PC is rolled back, so
that the same instruction runs again in the next step. No waiting state is stored (R34, C9). -/
def execLdVxK (x : Reg) (s : State) : Outcome State Fault Refusal :=
  match s.firstKey with
  | some k => .next (s.setReg x (k.setWidth 8))
  | none => .next s.rollBack

/-- `LD DT, Vx` (R205). -/
def execLdDtVx (x : Reg) (s : State) : Outcome State Fault Refusal :=
  .next { s with dt := s.reg x }

/-- `LD ST, Vx` (R206). -/
def execLdStVx (x : Reg) (s : State) : Outcome State Fault Refusal :=
  .next { s with st := s.reg x }

end Sys2Proof.Machine
end

