-- ==== Sys2Proof/Machine/LoadAlu.lean ====
section
/-! DEFINITION. The register load, arithmetic, logic, shift and random instructions
(`spec/42_load_alu.md`). Operands are read before anything is written; arithmetic is modulo 256
(R140, R153). -/

namespace Sys2Proof.Machine

open Host (Outcome)

/-- `LD Vx, kk` (R141). -/
def execLdImm (x : Reg) (kk : Byte) (s : State) : Outcome State Fault Refusal :=
  .next (s.setReg x kk)

/-- `ADD Vx, kk` (R142): wraps, and sets no flag. -/
def execAddImm (x : Reg) (kk : Byte) (s : State) : Outcome State Fault Refusal :=
  .next (s.setReg x (s.reg x + kk))

/-- `LD Vx, Vy` (R143). -/
def execLdReg (x y : Reg) (s : State) : Outcome State Fault Refusal :=
  .next (s.setReg x (s.reg y))

/-- `OR Vx, Vy` (R144); VF is left alone. -/
def execOr (x y : Reg) (s : State) : Outcome State Fault Refusal :=
  .next (s.setReg x (s.reg x ||| s.reg y))

/-- `AND Vx, Vy` (R145); VF is left alone. -/
def execAnd (x y : Reg) (s : State) : Outcome State Fault Refusal :=
  .next (s.setReg x (s.reg x &&& s.reg y))

/-- `XOR Vx, Vy` (R146); VF is left alone. -/
def execXor (x y : Reg) (s : State) : Outcome State Fault Refusal :=
  .next (s.setReg x (s.reg x ^^^ s.reg y))

/-- `ADD Vx, Vy` (R147). -/
def execAddReg (x y : Reg) (s : State) : Outcome State Fault Refusal :=
  .next (s.setFlagThenReg x (carry (s.reg x) (s.reg y)) (s.reg x + s.reg y))

/-- `SUB Vx, Vy` (R148): X = X - Y. -/
def execSub (x y : Reg) (s : State) : Outcome State Fault Refusal :=
  .next (s.setFlagThenReg x (noBorrow (s.reg x) (s.reg y)) (s.reg x - s.reg y))

/-- `SHR Vx` (R149): V[x] is shifted in place; the field `y` is unused. -/
def execShr (x _y : Reg) (s : State) : Outcome State Fault Refusal :=
  .next (s.setFlagThenReg x (shiftedOutRight (s.reg x)) (s.reg x >>> 1))

/-- `SUBN Vx, Vy` (R150): X = Y - X. -/
def execSubn (x y : Reg) (s : State) : Outcome State Fault Refusal :=
  .next (s.setFlagThenReg x (noBorrow (s.reg y) (s.reg x)) (s.reg y - s.reg x))

/-- `SHL Vx` (R151): V[x] is shifted in place; the field `y` is unused. -/
def execShl (x _y : Reg) (s : State) : Outcome State Fault Refusal :=
  .next (s.setFlagThenReg x (shiftedOutLeft (s.reg x)) (s.reg x <<< 1))

/-- `RND Vx, kk` (R152): a fresh free byte masked with `kk` (log 1). -/
def execRnd (x : Reg) (kk : Byte) (s : State) : Outcome State Fault Refusal :=
  .next { s.setReg x (Config.rnd s.rndIndex &&& kk) with rndIndex := s.rndIndex + 1 }

end Sys2Proof.Machine
end

