-- ==== Sys2Proof/Machine/NoOp.lean ====
section
/-! DEFINITION. The no-op (`spec/40_cycle_dispatch.md` R106). -/

namespace Sys2Proof.Machine

open Host (Outcome)

/-- `NOP` (`OP_NULL`, R106): nothing; the advance and the tick are the cycle's. -/
def execNop (s : State) : Outcome State Fault Refusal := .next s

end Sys2Proof.Machine
end

