-- ==== Sys2Proof/Machine/Step.lean ====
section
/-! DEFINITION. The one transition of the core (`spec/40_cycle_dispatch.md` R100), and the placing of an
opcode for the next step. -/

namespace Sys2Proof.Machine

open Host (Outcome)

/-- `step()` (R100): fetch, advance PC, decode, execute, tick the timers. An error in any phase ends
the step (R226). -/
def step (s : State) : Outcome State Fault Refusal :=
  match s.fetch with
  | none => raise .memoryFault
  | some w => mapNext State.tick (exec (decode w) s.advance)

/-- The state with the table's word `w` of `nbits` bits stored where the next step fetches, so that
`step` runs exactly that instruction; it stands for the host's `load` (R255; log 15). -/
def State.withFetchWord (s : State) (nbits w : Nat) : State := s.placeWord (tableWord nbits w)

end Sys2Proof.Machine
end

