-- ==== Sys2Proof/Machine/Interface.lean ====
section
/-! DEFINITION. The host's side of the interface (`spec/00_scope.md` R9): loading a program, pressing
keys, reading the screen and the timers, and a session of host moves and steps. None of these is an
instruction; the host acts only between two steps (R9, R271, D25; log 16). -/

namespace Sys2Proof.Machine

open Host (Outcome)

/-- Why `load` fails (R224). -/
inductive LoadError where
  /-- The byte source cannot be read; it arises on the host's side. -/
  | ioError
  /-- The program is longer than 3584 bytes. -/
  | tooLarge
  deriving DecidableEq, Repr

/-- `load(bytes)` (R255): copies the bytes to 0x200 and on, and touches nothing else. -/
def State.loadProgram (s : State) (bytes : List Byte) : Except LoadError State :=
  if bytes.length > 3584 then .error .tooLarge
  else .ok { s with mem := s.mem.writeBytes 0x200 bytes }

/-- `load` from a byte source, which may be unreadable (R224, R255). -/
def State.loadFrom (s : State) : Option (List Byte) → Except LoadError State
  | none => .error .ioError
  | some bytes => s.loadProgram bytes

/-- `setKey(index, pressed)`, index 0 to 15 (R29, D15). -/
def State.setKey (s : State) (k : Nibble) (pressed : Bool) : State :=
  { s with key := s.key.set k.toNat pressed k.isLt }

/-- `getVideoBuffer()`: the 64 by 32 cells, read only (R30). -/
def State.getVideoBuffer (s : State) (r : Fin 32) (c : Fin 64) : Bool := s.vid.cell r c

/-- `getDelayTimer()` (R28). -/
def State.getDelayTimer (s : State) : Byte := s.dt

/-- `getSoundTimer()` (R28). -/
def State.getSoundTimer (s : State) : Byte := s.st

/-- The sound output: the host emits a tone exactly when ST is not zero (R28). -/
def State.toneOn (s : State) : Bool := s.getSoundTimer != 0#8

/-- The numbers R231 gives the outcomes, should a number be wanted: 0 for ok, 1 to 3 for the three
`ExecError`s (D13; log 20). The unspecified outcome of R233 has none. -/
def outcomeCode : Outcome State Fault Refusal → Option Nat
  | .next _ => some 0
  | .fault .stackOverflow => some 1
  | .fault .stackUnderflow => some 2
  | .fault .memoryFault => some 3
  | .fault .keyIndexOutOfRange => none
  | .refused _ => none

/-- A move between the loading of the program and the end of a run (R9): a key change or a step. The
one `load` comes before all of them (D14). -/
inductive Move where
  | setKey (k : Nibble) (pressed : Bool)
  | step
  deriving DecidableEq, Repr

/-- One move. -/
def State.move (s : State) : Move → Outcome State Fault Refusal
  | .setKey k pressed => .next (s.setKey k pressed)
  | .step => step s

/-- A sequence of moves; the first error ends the run (R226, R257). -/
def State.moves : State → List Move → Outcome State Fault Refusal
  | s, [] => .next s
  | s, m :: ms =>
    match s.move m with
    | .next t => t.moves ms
    | .fault e => .fault e
    | .refused r => .refused r

/-- Boot (R252): reset with the open parameters (R8), then one `load`. -/
def boot (p : Params) (source : Option (List Byte)) : Except LoadError State :=
  (State.resetWith p).loadFrom source

end Sys2Proof.Machine
end

