-- ==== Sys2Proof/Safety.lean ====
section
/-! DEFINITION. The terms the statements use: the invariant of the machine, what an instruction may
change, which error it raises when, the derived conditions of the spec, and safe runs. -/

namespace Sys2Proof.Machine

open Host (Outcome)

/-- What holds in every state a run reaches: memory is in its canonical form; PC, I and every return
address are below 4096 (R22, R23, R121). That SP is 0 to 16 (R25) is in its type. -/
structure State.Inv (s : State) : Prop where
  mem_wf : s.mem.wf = true
  pc_lt : s.pc.toNat < 4096
  i_lt : s.i.toNat < 4096
  stk_lt : ∀ k : Fin 16, s.stk[k.val].toNat < 4096

/-- What a state change may touch. Everything not named is unchanged: a register not listed in
`regs`, a field whose mark is false, a byte of memory outside the `storeLen` bytes at `storeAt`.
KEY is changed by no instruction (R29), so it has no mark. -/
structure Changes where
  regs : List Reg := []
  i : Bool := false
  pc : Bool := false
  stk : Bool := false
  sp : Bool := false
  dt : Bool := false
  st : Bool := false
  vid : Bool := false
  storeAt : Nat := 0
  storeLen : Nat := 0
  rndIndex : Bool := false
  deriving DecidableEq, Repr

/-- From `s` to `t` nothing but what `c` names has changed. -/
structure ChangesOnly (c : Changes) (s t : State) : Prop where
  regs : ∀ r, r ∉ c.regs → t.reg r = s.reg r
  i : c.i = false → t.i = s.i
  pc : c.pc = false → t.pc = s.pc
  stk : c.stk = false → t.stk = s.stk
  sp : c.sp = false → t.sp = s.sp
  dt : c.dt = false → t.dt = s.dt
  st : c.st = false → t.st = s.st
  vid : c.vid = false → t.vid = s.vid
  key : t.key = s.key
  mem : ∀ a, ¬(c.storeAt ≤ a ∧ a < c.storeAt + c.storeLen) → t.mem.read a = s.mem.read a
  rndIndex : c.rndIndex = false → t.rndIndex = s.rndIndex

/-- The registers V0 to Vx (R177). -/
def regsUpTo (x : Reg) : List Reg := (List.range (x.toNat + 1)).map (BitVec.ofNat 4)

/-- What each instruction's rule lets its execute phase change, on a state with the PC advanced. -/
def mayChange (s : State) : Instr → Changes
  | .cls _ => { vid := true }
  | .ret _ => { pc := true, sp := true }
  | .jp _ => { pc := true }
  | .call _ => { pc := true, sp := true, stk := true }
  | .seImm _ _ => { pc := true }
  | .sneImm _ _ => { pc := true }
  | .seReg _ _ _ => { pc := true }
  | .ldImm x _ => { regs := [x] }
  | .addImm x _ => { regs := [x] }
  | .ldReg x _ => { regs := [x] }
  | .orReg x _ => { regs := [x] }
  | .andReg x _ => { regs := [x] }
  | .xorReg x _ => { regs := [x] }
  | .addReg x _ => { regs := [x, VF] }
  | .subReg x _ => { regs := [x, VF] }
  | .shr x _ => { regs := [x, VF] }
  | .subnReg x _ => { regs := [x, VF] }
  | .shl x _ => { regs := [x, VF] }
  | .sneReg _ _ _ => { pc := true }
  | .ldI _ => { i := true }
  | .jpV0 _ => { pc := true }
  | .rnd x _ => { regs := [x], rndIndex := true }
  | .drw _ _ _ => { regs := [VF], vid := true }
  | .skp _ _ => { pc := true }
  | .sknp _ _ => { pc := true }
  | .ldVxDt x => { regs := [x] }
  | .ldVxK x => { regs := [x], pc := true }
  | .ldDtVx _ => { dt := true }
  | .ldStVx _ => { st := true }
  | .addI _ => { i := true }
  | .ldF _ => { i := true }
  | .ldB _ => { storeAt := s.ea 0, storeLen := 3 }
  | .dump x => { storeAt := s.ea 0, storeLen := x.toNat + 1 }
  | .load x => { regs := regsUpTo x }
  | .nop _ => {}

/-- The error an instruction raises on a state, by the taxonomy of `spec/60_exceptions.md`: R221, R222,
R223, and the case of R203. No other instruction raises any (R220). -/
def errorIn (s : State) : Instr → Option Fault
  | .cls _ => none
  | .ret _ => if s.sp.val = 0 then some .stackUnderflow else none
  | .jp _ => none
  | .call _ => if s.sp.val = 16 then some .stackOverflow else none
  | .seImm _ _ => none
  | .sneImm _ _ => none
  | .seReg _ _ _ => none
  | .ldImm _ _ => none
  | .addImm _ _ => none
  | .ldReg _ _ => none
  | .orReg _ _ => none
  | .andReg _ _ => none
  | .xorReg _ _ => none
  | .addReg _ _ => none
  | .subReg _ _ => none
  | .shr _ _ => none
  | .subnReg _ _ => none
  | .shl _ _ => none
  | .sneReg _ _ _ => none
  | .ldI _ => none
  | .jpV0 _ => none
  | .rnd _ _ => none
  | .drw _ _ n => if n.toNat ≥ 1 ∧ s.i.toNat + n.toNat - 1 > 0xFFF then some .memoryFault else none
  | .skp x _ => if (s.reg x).toNat > 15 then some .keyIndexOutOfRange else none
  | .sknp x _ => if (s.reg x).toNat > 15 then some .keyIndexOutOfRange else none
  | .ldVxDt _ => none
  | .ldVxK _ => none
  | .ldDtVx _ => none
  | .ldStVx _ => none
  | .addI _ => none
  | .ldF _ => none
  | .ldB _ => if s.i.toNat + 2 > 0xFFF then some .memoryFault else none
  | .dump x => if s.i.toNat + x.toNat > 0xFFF then some .memoryFault else none
  | .load x => if s.i.toNat + x.toNat > 0xFFF then some .memoryFault else none
  | .nop _ => none

/-- The suspended condition, derived and never stored (R14, R204): the opcode at PC is `Fx0A` and no
key is pressed. -/
def State.suspended (s : State) : Prop :=
  (∃ w x, s.fetch = some w ∧ decode w = .ldVxK x) ∧ ∀ k, s.keyDown k = false

/-- The self-jump at PC, the optional end-of-run condition of R257: the bytes at PC are `JP PC`. -/
def State.atSelfJump (s : State) : Prop :=
  s.mem.read s.pc.toNat = 0x1#4 ++ s.pc.extractLsb' 8 4
    ∧ s.mem.read (s.pc.toNat + 1) = s.pc.extractLsb' 0 8
    ∧ s.pc.toNat < 0xFFF

/-- A pixel of the sprite that `DRW` draws from `s` falls on the cell at row `r`, column `c` with its
bit set (R191): `x0`, `y0` are the coordinates of the top-left pixel and `n` the height. -/
def Painted (s : State) (x0 y0 n : Nat) (r : Fin 32) (c : Fin 64) : Prop :=
  ∃ row col, row < n ∧ col < 8 ∧ (y0 + row) % 32 = r.val ∧ (x0 + col) % 64 = c.val
    ∧ (s.mem.read (s.i.toNat + row)).getLsbD (7 - col) = true

/-- A run of `k` steps from `s` that meets no error (R13, R226). -/
def SafeRun (k : Nat) (s : State) : Prop := ∃ t, Host.Core.run Sys2Proof.core k s = .next t

end Sys2Proof.Machine
end

