-- ==== Sys2Proof/Certificates/Slice0/Obligations.lean ====
section
/-! DEFINITION. The statements for the provers. Each docstring says which sentences of the spec it
formalises, and names the log entry or the spec's own decision where it rests on one. "Changes only"
is `ChangesOnly` of Safety.lean: every register, field and byte of memory it does not name is as
before. -/

open Sys2Proof Sys2Proof.Machine

/-- The words with `w and mask = value` decode to `p w` (the Encoding line of an instruction rule). -/
def Sys2Proof.SelectedBy (mask value : Word) (p : Word → Instr) : Prop :=
  ∀ w : Word, w &&& mask = value → decode w = p w

/-! ## Encoding (`spec/30_encoding.md`) -/

/-- Decoding the encoding of a well-formed instruction gives it back, for every operand the formats of
R82 admit. The opcode numbers are the spec's GK1 (log 10). -/
def Obligations.DecodeInvertsEncode : Prop :=
  ∀ i : Instr, i.wellFormed = true → decode (encode i) = i

/-- Every one of the 65536 words decodes to a well-formed instruction whose encoding is that word: no
word is illegal (R86) and no bit is dropped (log 9). -/
def Obligations.EncodeInvertsDecode : Prop :=
  ∀ w : Word, (decode w).wellFormed = true ∧ encode (decode w) = w

/-- The two-level dispatcher of R84 selects, for every word, the row of the opcode map of R85 that the
word's masks select, and the no-op when none does. The numbers are GK1, GK3 (log 10). -/
def Obligations.DispatcherFollowsOpcodeMap : Prop :=
  ∀ w : Word, (decode w).row = opcodeMap.find? (fun r => r.selects w)

/-- No two rows of the opcode map select the same opcode (R85; its numbers are GK1 and GK3, log
10). -/
def Obligations.OpcodeMapRowsDisjoint : Prop :=
  ∀ w : Word, (opcodeMap.filter (fun r => r.selects w)).length ≤ 1

/-- The no-op space is exactly the one R86 lists by family; the keys of the tables are GK3 (log 10). -/
def Obligations.NoOpSpaceByFamily : Prop :=
  ∀ w : Word, decode w = .nop w ↔
    (Field.op w = 0x0#4 ∧ Field.n w ≠ 0x0#4 ∧ Field.n w ≠ 0xE#4)
    ∨ (Field.op w = 0x8#4 ∧ (Field.n w).toNat ∈ [0x8, 0x9, 0xA, 0xB, 0xC, 0xD, 0xF])
    ∨ (Field.op w = 0xE#4 ∧ Field.n w ≠ 0x1#4 ∧ Field.n w ≠ 0xE#4)
    ∨ (Field.op w = 0xF#4 ∧
        (Field.kk w).toNat ∉ [0x07, 0x0A, 0x15, 0x18, 0x1E, 0x29, 0x33, 0x55, 0x65])

/-- Words written out from the encodings of R85, at least one of each of the 16 families, and aliases of
R87. The opcode numbers are the spec's general knowledge GK1 and GK3 (log 10); that the aliases
(0000, 5127) are the same instruction is its decision D1 (log 9). -/
def Obligations.WrittenOutWordsDecode : Prop :=
  decode 0x00E0#16 = .cls 0x0E#8 ∧ decode 0x0000#16 = .cls 0x00#8 ∧ decode 0x00EE#16 = .ret 0x0E#8
  ∧ decode 0x1204#16 = .jp 0x204#12 ∧ decode 0x220A#16 = .call 0x20A#12
  ∧ decode 0x3F01#16 = .seImm 0xF#4 0x01#8 ∧ decode 0x4205#16 = .sneImm 0x2#4 0x05#8
  ∧ decode 0x7102#16 = .addImm 0x1#4 0x02#8 ∧ decode 0x9120#16 = .sneReg 0x1#4 0x2#4 0x0#4
  ∧ decode 0xB300#16 = .jpV0 0x300#12 ∧ decode 0x5127#16 = .seReg 0x1#4 0x2#4 0x7#4
  ∧ decode 0x600A#16 = .ldImm 0x0#4 0x0A#8 ∧ decode 0x8127#16 = .subnReg 0x1#4 0x2#4
  ∧ decode 0xA300#16 = .ldI 0x300#12 ∧ decode 0xC10F#16 = .rnd 0x1#4 0x0F#8
  ∧ decode 0xD125#16 = .drw 0x1#4 0x2#4 0x5#4 ∧ decode 0xE39E#16 = .skp 0x3#4 0x9#4
  ∧ decode 0xF30A#16 = .ldVxK 0x3#4 ∧ decode 0xF255#16 = .dump 0x2#4
  ∧ decode 0x8018#16 = .nop 0x8018#16

/-- The ignored bits of R87, the unused `y` of the shifts among them, take no part in any operation
(the spec's decision D1; log 9). -/
def Obligations.IgnoredBitsHaveNoEffect : Prop :=
  ∀ (s : State) (x y y' : Reg) (a b : BitVec 8) (g h : Nibble) (w w' : Word),
    exec (.cls a) s = exec (.cls b) s ∧ exec (.ret a) s = exec (.ret b) s
    ∧ exec (.seReg x y g) s = exec (.seReg x y h) s ∧ exec (.sneReg x y g) s = exec (.sneReg x y h) s
    ∧ exec (.skp x g) s = exec (.skp x h) s ∧ exec (.sknp x g) s = exec (.sknp x h) s
    ∧ exec (.shr x y) s = exec (.shr x y') s ∧ exec (.shl x y) s = exec (.shl x y') s
    ∧ exec (.nop w) s = exec (.nop w') s

/-! ## The cycle (`spec/40_cycle_dispatch.md`) -/

/-- A step whose two bytes at PC can be fetched runs the instruction they decode to, on the state with
PC advanced by 2 modulo 4096 (D3; log 7), and then ticks both timers (D11; log 21); an error of the instruction is
the step's (R100 to R104). -/
def Obligations.StepRunsDecodedInstruction : Prop :=
  ∀ (s : State) (i : Instr), s.pc.toNat + 1 ≤ 0xFFF →
    decode (joinBytes (s.mem.read s.pc.toNat) (s.mem.read (s.pc.toNat + 1))) = i →
    (∀ t, exec i s.advance = .next t → step s = .next t.tick)
    ∧ (∀ f, exec i s.advance = .fault f → step s = .fault f)
    ∧ s.advance.pc.toNat = (s.pc.toNat + 2) % 4096 ∧ ChangesOnly { pc := true } s s.advance
    ∧ ∀ t : State, t.tick.dt.toNat = t.dt.toNat - 1 ∧ t.tick.st.toNat = t.st.toNat - 1
        ∧ ChangesOnly { dt := true, st := true } t t.tick

/-- R101: the opcode is the two bytes at PC and PC+1, big-endian and of any parity; when PC+1 is above
0xFFF the step is a `MemoryFault`, which for a PC below 4096 is exactly PC = 0xFFF. -/
def Obligations.FetchIsBigEndianOrFaults : Prop :=
  ∀ s : State,
    (s.pc.toNat + 1 > 0xFFF → step s = .fault .memoryFault)
    ∧ (s.pc.toNat + 1 ≤ 0xFFF → ∃ w, s.fetch = some w ∧
        w.toNat = (s.mem.read s.pc.toNat).toNat * 256 + (s.mem.read (s.pc.toNat + 1)).toNat)
    ∧ (s.pc.toNat < 4096 → (s.fetch = none ↔ s.pc = 0x0FFF#16))

/-- Every step that answers a next state takes one off each timer that is not 0, whatever the
instruction, and the tick sees the value that `LD DT, Vx` or `LD ST, Vx` has just written (R105; that
the cadence of one tick per step is kept is the spec's decision D11; log 21). -/
def Obligations.TimersTickOncePerStep : Prop :=
  ∀ (s t : State) (w : Word), s.fetch = some w → step s = .next t →
    (∀ x, decode w = .ldDtVx x → t.dt.toNat = (s.reg x).toNat - 1)
    ∧ ((∀ x, decode w ≠ .ldDtVx x) → t.dt.toNat = s.dt.toNat - 1)
    ∧ (∀ x, decode w = .ldStVx x → t.st.toNat = (s.reg x).toNat - 1)
    ∧ ((∀ x, decode w ≠ .ldStVx x) → t.st.toNat = s.st.toNat - 1)

/-- No step is refused: every word has a meaning (R13, R86). -/
def Obligations.NoStepIsRefused : Prop :=
  ∀ (s : State) (r : Refusal), step s ≠ .refused r

/-- The no-op (R106): a word of the no-op space changes nothing in the execute phase, raises nothing,
and its step advances PC by 2 modulo 4096 and ticks the timers. Which words these are rests on the
secondary keys, GK3 (log 10), and on D1 (log 9); the reduction modulo 4096 is D3 (log 7), and the
tick of every step D11 (log 21). -/
def Obligations.NoOpOnlyAdvancesAndTicks : Prop :=
  (∀ w : Word, noOpWord w = true → decode w = .nop w)
  ∧ (∀ (w : Word) (s : State), exec (.nop w) s = .next s)
  ∧ ∀ (s : State) (w : Word), s.fetch = some w → noOpWord w = true →
      ∃ t, step s = .next t ∧ t.pc.toNat = (s.pc.toNat + 2) % 4096
        ∧ t.dt.toNat = s.dt.toNat - 1 ∧ t.st.toNat = s.st.toNat - 1
        ∧ ChangesOnly { pc := true, dt := true, st := true } s t

/-! ## Frames and errors of all instructions -/

/-- An instruction that answers a next state has changed nothing but what `mayChange` lists for
it from its rule: registers, PC, I, the stack, the timers, the screen, and the bytes it stores to. -/
def Obligations.InstructionsChangeOnlyTheirOwn : Prop :=
  ∀ (i : Instr) (s t : State), exec i s = .next t → ChangesOnly (mayChange s i) s t

/-- An instruction raises exactly the error `errorIn` lists for the state (R221, R222, R223, and
the spec's decision D7 for a key index above 15; log 5), and completes in every other state. -/
def Obligations.InstructionsFailExactlyAsListed : Prop :=
  ∀ (i : Instr) (s : State),
    (∀ f, errorIn s i = some f → exec i s = .fault f)
    ∧ (errorIn s i = none → ∃ t, exec i s = .next t)

/-- R221: `StackOverflow` is raised by `CALL nnn` executed with SP = 16 and by nothing else. -/
def Obligations.StackOverflowOnlyFromCall : Prop :=
  (∀ (i : Instr) (s : State),
    exec i s = .fault .stackOverflow ↔ (∃ nnn, i = .call nnn) ∧ s.sp.val = 16)
  ∧ ∀ s : State, step s = .fault .stackOverflow ↔
      ∃ w nnn, s.fetch = some w ∧ decode w = .call nnn ∧ s.sp.val = 16

/-- R222: `StackUnderflow` is raised by `RET` executed with SP = 0 and by nothing else. -/
def Obligations.StackUnderflowOnlyFromRet : Prop :=
  (∀ (i : Instr) (s : State),
    exec i s = .fault .stackUnderflow ↔ (∃ ign, i = .ret ign) ∧ s.sp.val = 0)
  ∧ ∀ s : State, step s = .fault .stackUnderflow ↔
      ∃ w ign, s.fetch = some w ∧ decode w = .ret ign ∧ s.sp.val = 0

/-- R223: `MemoryFault` is raised by the fetch when PC + 1 is above 0xFFF, by `DRW` with n >= 1 and
I + n - 1 above 0xFFF, by `LD B, Vx` with I + 2 above 0xFFF, and by `LD [I], Vx` and `LD Vx, [I]` with
I + x above 0xFFF; no other instruction raises it. That an effective address is not reduced is the
spec's decision D3 (log 7), and that `DRW` with n = 0 never faults its decision D24 (log 14). -/
def Obligations.MemoryFaultExactlyWhenOutside : Prop :=
  (∀ (i : Instr) (s : State), exec i s = .fault .memoryFault ↔
    (∃ x y n, i = .drw x y n ∧ n.toNat ≥ 1 ∧ s.i.toNat + n.toNat - 1 > 0xFFF)
    ∨ (∃ x, i = .ldB x ∧ s.i.toNat + 2 > 0xFFF)
    ∨ (∃ x, (i = .dump x ∨ i = .load x) ∧ s.i.toNat + x.toNat > 0xFFF))
  ∧ (∀ s : State, step s = .fault .memoryFault ↔
      s.pc.toNat + 1 > 0xFFF
      ∨ ∃ w, s.fetch = some w ∧ exec (decode w) s.advance = .fault .memoryFault)

/-- MEM is written by the BCD store and the register dump alone (R32, C2); every other instruction
leaves the memory the same data. -/
def Obligations.MemoryWrittenOnlyByBcdAndDump : Prop :=
  ∀ (i : Instr) (s t : State), exec i s = .next t →
    (∀ x, i ≠ .ldB x) → (∀ x, i ≠ .dump x) → t.mem = s.mem

/-- VID is written by `CLS` and `DRW` alone (R30). -/
def Obligations.VideoWrittenOnlyByClsAndDraw : Prop :=
  ∀ (i : Instr) (s t : State), exec i s = .next t →
    (∀ g, i ≠ .cls g) → (∀ x y n, i ≠ .drw x y n) → t.vid = s.vid

/-- Only `CALL` writes a stack slot, and only `CALL` and `RET` change SP (R24, R25). -/
def Obligations.StackTouchedOnlyByCallAndRet : Prop :=
  ∀ (i : Instr) (s t : State), exec i s = .next t → (∀ nnn, i ≠ .call nnn) →
    t.stk = s.stk ∧ ((∀ g, i ≠ .ret g) → t.sp = s.sp)

/-- KEY is read-only to the core (R29): no step changes a key. -/
def Obligations.NoStepWritesTheKeypad : Prop :=
  ∀ s t : State, step s = .next t → t.key = s.key

/-- `SKP`, `SKNP` and `LD Vx, K` are the only instructions that read KEY (R29, C8): every other one
does the same whatever the keys are. -/
def Obligations.KeypadReadByThreeInstructions : Prop :=
  ∀ (i : Instr) (s : State) (keys : Vector Bool 16),
    (∀ x g, i ≠ .skp x g) → (∀ x g, i ≠ .sknp x g) → (∀ x, i ≠ .ldVxK x) →
    exec i { s with key := keys } = mapNext (fun t => { t with key := keys }) (exec i s)

/-- No instruction reads ST (R27): whatever ST holds, an instruction other than `LD ST, Vx` does the
same and leaves ST as it was, and `LD ST, Vx` overwrites it. -/
def Obligations.SoundTimerReadByNoInstruction : Prop :=
  ∀ (i : Instr) (s : State) (b : Byte),
    ((∀ x, i ≠ .ldStVx x) →
      exec i { s with st := b } = mapNext (fun t => { t with st := b }) (exec i s))
    ∧ ∀ x, exec (.ldStVx x) { s with st := b } = exec (.ldStVx x) s

/-- The free random byte is read by `RND` alone (R107): the draw a state stands at does not matter to
any other instruction (the index of the draw is the model's own, log 1). -/
def Obligations.RandomInputReadOnlyByRnd : Prop :=
  ∀ (i : Instr) (s : State) (k : Nat), (∀ x kk, i ≠ .rnd x kk) →
    exec i { s with rndIndex := k } = mapNext (fun t => { t with rndIndex := k }) (exec i s)

/-! ## Invariants -/

/-- The invariant holds at reset, for every `FONT` (R8). That I and the stack slots are below 4096 there
rests on the zero reset values, the spec's decision D4 (log 2); the canonical form of memory is the
model's own (log 17). That PC is 0x200 is the source's. -/
def Obligations.ResetMeetsTheInvariant : Prop :=
  State.reset.Inv ∧ ∀ p : Params, (State.resetWith p).Inv

/-- Every step keeps the invariant, from every state that has it: memory in canonical form, and PC, I
and the return addresses below 4096 ("bits 15:12 are always zero from reset on", R22, R23, by the
spec's decision D3; log 7). -/
def Obligations.StepKeepsTheInvariant : Prop :=
  ∀ s t : State, s.Inv → step s = .next t → t.Inv

/-- The host's moves keep the invariant too: a load that succeeds, and any sequence of key changes and
steps that meets no error (R9, R255; log 16). -/
def Obligations.HostMovesKeepTheInvariant : Prop :=
  ∀ s : State, s.Inv →
    (∀ source t, s.loadFrom source = .ok t → t.Inv)
    ∧ ∀ ms t, s.moves ms = .next t → t.Inv

/-- Memories in canonical form that read the same at every address are the same data (the model's own
representation, log 17). -/
def Obligations.EqualReadsMeanEqualMemory : Prop :=
  ∀ m m' : Memory, m.wf = true → m'.wf = true → (∀ a, m.read a = m'.read a) → m = m'

/-! ## Reset and the host (`spec/10_state.md` R36, `spec/70_reset_and_hazards.md`) -/

/-- The state after reset: PC is 0x200 as the source states; every other register, slot, timer, key
and cell is 0 by the spec's decision D4 (log 2); memory holds the bytes of `FONT` at 0x050 to 0x09F
(the parameter at its default, log 3) and 0 elsewhere (D4, log 4). For every other `FONT` (R8, R31)
those 80 bytes are the given ones, and the rest is the same. -/
def Obligations.ResetStateValues : Prop :=
  State.reset.pc = 0x0200#16 ∧ (∀ r, State.reset.reg r = 0x00#8) ∧ State.reset.i = 0x0000#16
  ∧ (∀ k : Fin 16, State.reset.stk[k.val] = 0x0000#16) ∧ State.reset.sp = 0
  ∧ State.reset.dt = 0x00#8 ∧ State.reset.st = 0x00#8 ∧ (∀ k, State.reset.keyDown k = false)
  ∧ (∀ r c, State.reset.vid.cell r c = false)
  ∧ font.length = 80 ∧ (∀ k b, font[k]? = some b → State.reset.mem.read (0x050 + k) = b)
  ∧ (∀ a, a < 0x050 ∨ 0x09F < a → State.reset.mem.read a = 0x00#8)
  ∧ State.resetWith defaultParams = State.reset
  ∧ ∀ p : Params,
      (∀ k : Fin 80, (State.resetWith p).mem.read (0x050 + k.val) = p.font[k.val])
      ∧ ChangesOnly { storeAt := 0x050, storeLen := 80 } State.reset (State.resetWith p)

/-- `load` (R255): at most 3584 bytes go to 0x200 and on, and nothing else changes; a longer program
is `TooLarge` and an unreadable source `IOError` (R224). That it touches nothing else is the spec's
decision D14. -/
def Obligations.LoadCopiesTheProgram : Prop :=
  ∀ (s : State) (bytes : List Byte),
    (bytes.length > 3584 → s.loadFrom (some bytes) = .error .tooLarge)
    ∧ (bytes.length ≤ 3584 → ∃ t, s.loadFrom (some bytes) = .ok t
        ∧ ChangesOnly { storeAt := 0x200, storeLen := bytes.length } s t
        ∧ (s.mem.wf = true → ∀ k b, bytes[k]? = some b → t.mem.read (0x200 + k) = b))
    ∧ s.loadFrom none = .error .ioError

/-- `setKey(index, pressed)` writes one key and nothing else (R29; the index range is D15). -/
def Obligations.SetKeyWritesOneKey : Prop :=
  ∀ (s : State) (k : Nibble) (pressed : Bool),
    (∀ j, (s.setKey k pressed).keyDown j = if j = k then pressed else s.keyDown j)
    ∧ s.setKey k pressed = { s with key := (s.setKey k pressed).key }

/-- An opcode placed by `withFetchWord` is the one the next step fetches (the model's own loading of
one instruction, log 15). -/
def Obligations.PlacedWordIsFetched : Prop :=
  ∀ (s : State) (w : Nat), s.mem.wf = true → w < 65536 →
    (s.withFetchWord 16 w).fetch = some (BitVec.ofNat 16 w)

/-! ## Control transfer (`spec/41_control_transfer.md`) -/

/-- R121, `RET`: `SP <- SP - 1`, `PC <- STK[SP] mod 4096`, which is the slot itself where that is below
4096; the slot keeps its value; with SP = 0 it is a `StackUnderflow`. The number 00EE is GK1 (log 10), the
ignored bits 11:4 are D1 (log 9), and the reduction modulo 4096 is D3 (log 7). -/
def Obligations.RetPopsTheReturnAddress : Prop :=
  SelectedBy 0xF00F#16 0x000E#16 (fun w => .ret (Field.ignZ w))
  ∧ ∀ (ign : BitVec 8) (s : State),
    (s.sp.val = 0 → exec (.ret ign) s = .fault .stackUnderflow)
    ∧ ∀ k : Fin 16, s.sp.val = k.val + 1 → ∃ t, exec (.ret ign) s = .next t
        ∧ t.sp.val = k.val ∧ t.pc.toNat = s.stk[k.val].toNat % 4096
        ∧ (s.stk[k.val].toNat < 4096 → t.pc = s.stk[k.val])
        ∧ ChangesOnly { pc := true, sp := true } s t

/-- R123, `CALL nnn`: `STK[SP] <- PC` (the advanced PC), `SP <- SP + 1`, `PC <- nnn`; with SP = 16 it is
a `StackOverflow`. The number 2nnn is GK1 (log 10). -/
def Obligations.CallPushesTheReturnAddress : Prop :=
  SelectedBy 0xF000#16 0x2000#16 (fun w => .call (Field.nnn w))
  ∧ ∀ (nnn : Addr) (s : State),
    (s.sp.val = 16 → exec (.call nnn) s = .fault .stackOverflow)
    ∧ ∀ k : Fin 16, s.sp.val = k.val → ∃ t, exec (.call nnn) s = .next t
        ∧ t.stk[k.val] = s.pc ∧ (∀ j : Fin 16, j ≠ k → t.stk[j.val] = s.stk[j.val])
        ∧ t.sp.val = k.val + 1 ∧ t.pc.toNat = nnn.toNat
        ∧ ChangesOnly { pc := true, sp := true, stk := true } s t

/-- R122 and R128, `JP nnn` and `JP V0, nnn`: PC is `nnn`, or `(nnn + V0) mod 4096`, where the reduction
is D3 (log 7). The numbers 1nnn and Bnnn are GK1 (log 10). -/
def Obligations.JumpsSetThePc : Prop :=
  SelectedBy 0xF000#16 0x1000#16 (fun w => .jp (Field.nnn w))
  ∧ SelectedBy 0xF000#16 0xB000#16 (fun w => .jpV0 (Field.nnn w))
  ∧ ∀ (nnn : Addr) (s : State),
    (∃ t, exec (.jp nnn) s = .next t ∧ t.pc.toNat = nnn.toNat ∧ ChangesOnly { pc := true } s t)
    ∧ ∃ t, exec (.jpV0 nnn) s = .next t
        ∧ t.pc.toNat = (nnn.toNat + (s.reg 0x0#4).toNat) % 4096 ∧ ChangesOnly { pc := true } s t

/-- R124 to R127, the four comparing skips: PC moves on by 2 modulo 4096 when the condition holds and
stays otherwise, and nothing else changes. The reduction modulo 4096 is D3 (log 7), the numbers 3xkk,
4xkk, 5xy0, 9xy0 are GK1 and GK2 (log 10), and the ignored low nibble of 5xy0 and 9xy0 is D1 (log
9). -/
def Obligations.ComparingSkips : Prop :=
  SelectedBy 0xF000#16 0x3000#16 (fun w => .seImm (Field.x w) (Field.kk w))
  ∧ SelectedBy 0xF000#16 0x4000#16 (fun w => .sneImm (Field.x w) (Field.kk w))
  ∧ SelectedBy 0xF000#16 0x5000#16 (fun w => .seReg (Field.x w) (Field.y w) (Field.n w))
  ∧ SelectedBy 0xF000#16 0x9000#16 (fun w => .sneReg (Field.x w) (Field.y w) (Field.n w))
  ∧ ∀ (x y : Reg) (kk : Byte) (ign : Nibble) (s : State),
    (∃ t, exec (.seImm x kk) s = .next t ∧ ChangesOnly { pc := true } s t
      ∧ t.pc.toNat = if s.reg x = kk then (s.pc.toNat + 2) % 4096 else s.pc.toNat)
    ∧ (∃ t, exec (.sneImm x kk) s = .next t ∧ ChangesOnly { pc := true } s t
      ∧ t.pc.toNat = if s.reg x ≠ kk then (s.pc.toNat + 2) % 4096 else s.pc.toNat)
    ∧ (∃ t, exec (.seReg x y ign) s = .next t ∧ ChangesOnly { pc := true } s t
      ∧ t.pc.toNat = if s.reg x = s.reg y then (s.pc.toNat + 2) % 4096 else s.pc.toNat)
    ∧ ∃ t, exec (.sneReg x y ign) s = .next t ∧ ChangesOnly { pc := true } s t
      ∧ t.pc.toNat = if s.reg x ≠ s.reg y then (s.pc.toNat + 2) % 4096 else s.pc.toNat

/-- A `CALL` and then a `RET` in the subroutine bring PC, SP and everything but the slot used back to
what they were (the source's round-trip property, R123), for a PC below 4096. -/
def Obligations.CallThenRetReturns : Prop :=
  ∀ (nnn : Addr) (ign : BitVec 8) (s t : State), s.pc.toNat < 4096 →
    exec (.call nnn) s = .next t →
    ∃ u, exec (.ret ign) t = .next u ∧ u.pc = s.pc ∧ u.sp = s.sp ∧ ChangesOnly { stk := true } s u
      ∧ ∀ j : Fin 16, j.val ≠ s.sp.val → u.stk[j.val] = s.stk[j.val]

/-- A jump to its own address (R122, R257): a step at `JP PC` leaves everything as it is but for the
timers, which tick. That this is the end of a program is a convention (GK10). The
tick is D11 (log 21). -/
def Obligations.SelfJumpOnlyTicks : Prop :=
  ∀ s : State, s.atSelfJump → ∃ t, step s = .next t
    ∧ t.dt.toNat = s.dt.toNat - 1 ∧ t.st.toNat = s.st.toNat - 1
    ∧ ChangesOnly { dt := true, st := true } s t ∧ t.atSelfJump

/-! ## Load, arithmetic, logic, shift, random (`spec/42_load_alu.md`) -/

/-- R141, R142, R143: `LD Vx, kk`, `ADD Vx, kk` (which wraps and sets no flag) and `LD Vx, Vy`. The
numbers 7xkk and 8xy0 are GK1, GK2 and GK3 (log 10); 6xkk is the source's. -/
def Obligations.LoadsAndAddImmediate : Prop :=
  SelectedBy 0xF000#16 0x6000#16 (fun w => .ldImm (Field.x w) (Field.kk w))
  ∧ SelectedBy 0xF000#16 0x7000#16 (fun w => .addImm (Field.x w) (Field.kk w))
  ∧ SelectedBy 0xF00F#16 0x8000#16 (fun w => .ldReg (Field.x w) (Field.y w))
  ∧ ∀ (x y : Reg) (kk : Byte) (s : State),
    (∃ t, exec (.ldImm x kk) s = .next t ∧ ChangesOnly { regs := [x] } s t ∧ t.reg x = kk)
    ∧ (∃ t, exec (.addImm x kk) s = .next t ∧ ChangesOnly { regs := [x] } s t
      ∧ (t.reg x).toNat = ((s.reg x).toNat + kk.toNat) % 256)
    ∧ ∃ t, exec (.ldReg x y) s = .next t ∧ ChangesOnly { regs := [x] } s t ∧ t.reg x = s.reg y

/-- R144, R145, R146: the bitwise operations, bit by bit; VF is not touched unless it is V[x]. The
numbers 8xy1, 8xy2, 8xy3 are GK1, GK2 and GK3 (log 10). -/
def Obligations.BitwiseOperations : Prop :=
  SelectedBy 0xF00F#16 0x8001#16 (fun w => .orReg (Field.x w) (Field.y w))
  ∧ SelectedBy 0xF00F#16 0x8002#16 (fun w => .andReg (Field.x w) (Field.y w))
  ∧ SelectedBy 0xF00F#16 0x8003#16 (fun w => .xorReg (Field.x w) (Field.y w))
  ∧ ∀ (x y : Reg) (s : State),
    (∃ t, exec (.orReg x y) s = .next t ∧ ChangesOnly { regs := [x] } s t
      ∧ ∀ b, (t.reg x).getLsbD b = ((s.reg x).getLsbD b || (s.reg y).getLsbD b))
    ∧ (∃ t, exec (.andReg x y) s = .next t ∧ ChangesOnly { regs := [x] } s t
      ∧ ∀ b, (t.reg x).getLsbD b = ((s.reg x).getLsbD b && (s.reg y).getLsbD b))
    ∧ ∃ t, exec (.xorReg x y) s = .next t ∧ ChangesOnly { regs := [x] } s t
      ∧ ∀ b, (t.reg x).getLsbD b = ((s.reg x).getLsbD b ^^ (s.reg y).getLsbD b)

/-- R147, `ADD Vx, Vy`: the sum modulo 256, and VF the carry. For `x = 15` the result overwrites the
flag: the spec's decision D6 (log 6). -/
def Obligations.AddSetsCarry : Prop :=
  ∀ (x y : Reg) (s : State), ∃ t, exec (.addReg x y) s = .next t
    ∧ ChangesOnly { regs := [x, VF] } s t
    ∧ (t.reg x).toNat = ((s.reg x).toNat + (s.reg y).toNat) % 256
    ∧ (x ≠ VF → t.reg VF = if (s.reg x).toNat + (s.reg y).toNat > 255 then 1#8 else 0#8)

/-- R148 and R150, `SUB` and `SUBN`: the difference modulo 256, and VF 1 exactly when the minuend is
strictly greater, so 0 for equal operands (C11). For `x = 15` the result overwrites the flag (D6;
log 6). -/
def Obligations.SubtractsSetStrictNoBorrow : Prop :=
  ∀ (x y : Reg) (s : State),
    (∃ t, exec (.subReg x y) s = .next t ∧ ChangesOnly { regs := [x, VF] } s t
      ∧ (t.reg x).toNat = ((s.reg x).toNat + 256 - (s.reg y).toNat) % 256
      ∧ (x ≠ VF → t.reg VF = if (s.reg x).toNat > (s.reg y).toNat then 1#8 else 0#8))
    ∧ ∃ t, exec (.subnReg x y) s = .next t ∧ ChangesOnly { regs := [x, VF] } s t
      ∧ (t.reg x).toNat = ((s.reg y).toNat + 256 - (s.reg x).toNat) % 256
      ∧ (x ≠ VF → t.reg VF = if (s.reg y).toNat > (s.reg x).toNat then 1#8 else 0#8)

/-- R149 and R151, `SHR` and `SHL`: V[x] shifted by one place in place, V[y] neither read nor written,
and VF the bit shifted out. For `x = 15` the result overwrites the flag (D6; log 6). -/
def Obligations.ShiftsSetShiftedOutBit : Prop :=
  ∀ (x y : Reg) (s : State),
    (∃ t, exec (.shr x y) s = .next t ∧ ChangesOnly { regs := [x, VF] } s t
      ∧ (t.reg x).toNat = (s.reg x).toNat / 2
      ∧ (x ≠ VF → (t.reg VF).toNat = (s.reg x).toNat % 2))
    ∧ ∃ t, exec (.shl x y) s = .next t ∧ ChangesOnly { regs := [x, VF] } s t
      ∧ (t.reg x).toNat = (s.reg x).toNat * 2 % 256
      ∧ (x ≠ VF → (t.reg VF).toNat = (s.reg x).toNat / 128)

/-- R152, `RND Vx, kk`: the free random byte masked with `kk`, for every value of the draw, and the next
draw is another one (the form of the free input is the model's, log 1; the spec's D12). -/
def Obligations.RandomByteIsMasked : Prop :=
  ∀ (x : Reg) (kk : Byte) (s : State), ∃ t, exec (.rnd x kk) s = .next t
    ∧ ChangesOnly { regs := [x], rndIndex := true } s t
    ∧ t.reg x = Config.rnd s.rndIndex &&& kk ∧ t.rndIndex = s.rndIndex + 1

/-- R21: what the flag-writing instructions leave in VF is 0 or 1 and nothing else (for the five that
also write V[x], when `x` is not 15, D6). -/
def Obligations.FlagsAreZeroOrOne : Prop :=
  ∀ (i : Instr) (x y : Reg) (n : Nibble) (s t : State), x ≠ VF →
    i ∈ [.addReg x y, .subReg x y, .shr x y, .subnReg x y, .shl x y, .drw x y n, .drw VF y n] →
    exec i s = .next t → t.reg VF = 0#8 ∨ t.reg VF = 1#8

/-! ## Index register and memory (`spec/43_index_memory.md`) -/

/-- R171, `ADD I, Vx`: modulo 4096 (which the source states of this instruction, and which is one case
of log 7), and no flag. The number Fx1E is GK1 and GK3 (log 10). -/
def Obligations.AddToIndexWraps : Prop :=
  SelectedBy 0xF0FF#16 0xF01E#16 (fun w => .addI (Field.x w))
  ∧ ∀ (x : Reg) (s : State), ∃ t, exec (.addI x) s = .next t ∧ ChangesOnly { i := true } s t
      ∧ t.i.toNat = (s.i.toNat + (s.reg x).toNat) % 4096

/-- R170 and R172: `LD I, nnn` (from general knowledge, GK4; log 10) and `LD F, Vx`, which uses the
whole byte of V[x] (the spec's decision D23; log 13). -/
def Obligations.IndexLoads : Prop :=
  ∀ (nnn : Addr) (x : Reg) (s : State),
    (∃ t, exec (.ldI nnn) s = .next t ∧ ChangesOnly { i := true } s t ∧ t.i.toNat = nnn.toNat)
    ∧ ∃ t, exec (.ldF x) s = .next t ∧ ChangesOnly { i := true } s t
      ∧ t.i.toNat = 0x050 + 5 * (s.reg x).toNat

/-- R173, `LD B, Vx`: hundreds, tens and units of V[x] at I, I+1, I+2; with I + 2 above 0xFFF it is a
`MemoryFault`. That I + 2 is not reduced is D3 (log 7); reading the bytes back rests on the memory's
canonical form (log 17). -/
def Obligations.BcdStoresDigits : Prop :=
  SelectedBy 0xF0FF#16 0xF033#16 (fun w => .ldB (Field.x w))
  ∧ ∀ (x : Reg) (s : State),
    (s.i.toNat + 2 > 0xFFF → exec (.ldB x) s = .fault .memoryFault)
    ∧ (s.i.toNat + 2 ≤ 0xFFF → ∃ t, exec (.ldB x) s = .next t
        ∧ ChangesOnly { storeAt := s.ea 0, storeLen := 3 } s t
        ∧ (s.mem.wf = true →
            (t.mem.read s.i.toNat).toNat = (s.reg x).toNat / 100
            ∧ (t.mem.read (s.i.toNat + 1)).toNat = (s.reg x).toNat / 10 % 10
            ∧ (t.mem.read (s.i.toNat + 2)).toNat = (s.reg x).toNat % 10))

/-- R176, `LD [I], Vx`: V[0] to V[x] at I to I+x, I unchanged; with I + x above 0xFFF it is a
`MemoryFault`. That I + x is not reduced is D3 (log 7); that I is unchanged is what R22 marks as derived
from the source's row listing no write to I; reading the bytes back rests on the memory's canonical
form (log 17). -/
def Obligations.DumpStoresRegisters : Prop :=
  SelectedBy 0xF0FF#16 0xF055#16 (fun w => .dump (Field.x w))
  ∧ ∀ (x : Reg) (s : State),
    (s.i.toNat + x.toNat > 0xFFF → exec (.dump x) s = .fault .memoryFault)
    ∧ (s.i.toNat + x.toNat ≤ 0xFFF → ∃ t, exec (.dump x) s = .next t
        ∧ ChangesOnly { storeAt := s.ea 0, storeLen := x.toNat + 1 } s t
        ∧ (s.mem.wf = true →
            ∀ k : Reg, k.toNat ≤ x.toNat → t.mem.read (s.i.toNat + k.toNat) = s.reg k))

/-- R177, `LD Vx, [I]`: V[0] to V[x] from I to I+x, I and the registers above V[x] unchanged; with
I + x above 0xFFF it is a `MemoryFault`. That I + x is not reduced is D3 (log 7); that I is unchanged is
what R22 marks as derived from the source's row listing no write to I. -/
def Obligations.LoadFillsRegisters : Prop :=
  SelectedBy 0xF0FF#16 0xF065#16 (fun w => .load (Field.x w))
  ∧ ∀ (x : Reg) (s : State),
    (s.i.toNat + x.toNat > 0xFFF → exec (.load x) s = .fault .memoryFault)
    ∧ (s.i.toNat + x.toNat ≤ 0xFFF → ∃ t, exec (.load x) s = .next t
        ∧ ChangesOnly { regs := regsUpTo x } s t
        ∧ ∀ k : Reg, k.toNat ≤ x.toNat → t.reg k = s.mem.read (s.i.toNat + k.toNat))

/-- A register load at the address of a register dump brings V[0] to V[x] back, whatever the registers
held in between (R176, R177). -/
def Obligations.DumpThenLoadRestores : Prop :=
  ∀ (x : Reg) (v : Vector Byte 16) (s t : State), s.mem.wf = true →
    exec (.dump x) s = .next t →
    ∃ u, exec (.load x) { t with v := v } = .next u
      ∧ ∀ k : Reg, k.toNat ≤ x.toNat → u.reg k = s.reg k

/-- Instruction-fetch coherence (R61): the fetch after a register dump that wrote the two bytes at PC
reads the stored bytes. -/
def Obligations.StoreIsSeenByNextFetch : Prop :=
  ∀ (x k : Reg) (s t : State), s.mem.wf = true → exec (.dump x) s = .next t →
    k.toNat + 1 ≤ x.toNat → s.pc.toNat = s.i.toNat + k.toNat →
    t.fetch = some (joinBytes (s.reg k) (s.reg (k + 1#4)))

/-! ## Display (`spec/44_display.md`) -/

/-- R190, `CLS`: all 2048 cells are 0, VF is left alone. The number 00E0 is GK1 (log 10), and that bits
11:4 are ignored, so that 0x0000 is `CLS`, is D1 (log 9). -/
def Obligations.ClearZeroesTheScreen : Prop :=
  SelectedBy 0xF00F#16 0x0000#16 (fun w => .cls (Field.ignZ w))
  ∧ ∀ (ign : BitVec 8) (s : State), ∃ t, exec (.cls ign) s = .next t
      ∧ ChangesOnly { vid := true } s t ∧ ∀ r c, t.vid.cell r c = false

/-- R191, `DRW Vx, Vy, n`: exactly the cells a set sprite pixel falls on are inverted, each coordinate
reduced separately, and VF is 1 exactly when one of them was set before. Bit 7 as the leftmost pixel
and V[x], V[y] as coordinates are GK6 (D9; log 12), height 0 is D24 (log 14). -/
def Obligations.DrawInvertsPaintedCells : Prop :=
  ∀ (x y : Reg) (n : Nibble) (s : State), n.toNat = 0 ∨ s.i.toNat + n.toNat - 1 ≤ 0xFFF →
    ∃ t, exec (.drw x y n) s = .next t ∧ ChangesOnly { regs := [VF], vid := true } s t
      ∧ (∀ r c,
          (Painted s (s.reg x).toNat (s.reg y).toNat n.toNat r c →
            t.vid.cell r c = !s.vid.cell r c)
          ∧ (¬ Painted s (s.reg x).toNat (s.reg y).toNat n.toNat r c →
            t.vid.cell r c = s.vid.cell r c))
      ∧ ((∃ r c, Painted s (s.reg x).toNat (s.reg y).toNat n.toNat r c ∧ s.vid.cell r c = true) →
          t.reg VF = 1#8)
      ∧ ((¬ ∃ r c, Painted s (s.reg x).toNat (s.reg y).toNat n.toNat r c ∧ s.vid.cell r c = true) →
          t.reg VF = 0#8)

/-- "Drawing the same sprite twice at the same coordinates restores the original pixel state" (R191);
on a screen that was all zero the first draw leaves VF = 0, and the second VF = 1 if anything was
drawn. The coordinates are the same when neither register is VF, which the first draw writes. -/
def Obligations.DrawTwiceRestores : Prop :=
  ∀ (x y : Reg) (n : Nibble) (s t : State), x ≠ VF → y ≠ VF → exec (.drw x y n) s = .next t →
    ∃ u, exec (.drw x y n) t = .next u ∧ u.vid = s.vid
      ∧ ((∀ r c, s.vid.cell r c = false) →
          t.reg VF = 0#8 ∧ ((∃ r c, t.vid.cell r c = true) → u.reg VF = 1#8))

/-! ## Keypad and timers (`spec/45_keypad_timers.md`) -/

/-- R200 and R201, `SKP` and `SKNP`: for V[x] from 0 to 15 the key of that index decides the skip; for
a greater V[x] the step is a fault of its own kind (R203, the spec's decision D7, U1; log 5). -/
def Obligations.KeySkips : Prop :=
  ∀ (x : Reg) (ign : Nibble) (s : State),
    (∀ k : Nibble, (s.reg x).toNat = k.toNat →
      (∃ t, exec (.skp x ign) s = .next t ∧ ChangesOnly { pc := true } s t
        ∧ t.pc.toNat = if s.keyDown k = true then (s.pc.toNat + 2) % 4096 else s.pc.toNat)
      ∧ ∃ t, exec (.sknp x ign) s = .next t ∧ ChangesOnly { pc := true } s t
        ∧ t.pc.toNat = if s.keyDown k = false then (s.pc.toNat + 2) % 4096 else s.pc.toNat)
    ∧ ((s.reg x).toNat > 15 →
      exec (.skp x ign) s = .fault .keyIndexOutOfRange
      ∧ exec (.sknp x ign) s = .fault .keyIndexOutOfRange)

/-- R204, `LD Vx, K`: the least pressed key goes to V[x] (the least by the spec's decision D8; log 11);
with no key pressed only PC changes, by -2 modulo 4096. -/
def Obligations.WaitForKey : Prop :=
  ∀ (x : Reg) (s : State),
    (∀ k : Nibble, s.keyDown k = true → (∀ j : Nibble, j.toNat < k.toNat → s.keyDown j = false) →
      ∃ t, exec (.ldVxK x) s = .next t ∧ ChangesOnly { regs := [x] } s t
        ∧ (t.reg x).toNat = k.toNat)
    ∧ ((∀ k, s.keyDown k = false) →
      ∃ t, exec (.ldVxK x) s = .next t ∧ ChangesOnly { pc := true } s t
        ∧ t.pc.toNat = (s.pc.toNat + 4094) % 4096)

/-- The suspended condition (R204): a step with `LD Vx, K` at PC and no key pressed leaves PC and every
register as they were, ticks the timers, and leaves the machine suspended. The roll-back modulo 4096 is D3 (log
7), the tick of every step D11 (log 21). -/
def Obligations.SuspendedStepOnlyTicks : Prop :=
  ∀ s : State, s.pc.toNat < 4096 → s.suspended → ∃ t, step s = .next t
    ∧ t.dt.toNat = s.dt.toNat - 1 ∧ t.st.toNat = s.st.toNat - 1
    ∧ ChangesOnly { dt := true, st := true } s t ∧ t.suspended

/-- R202 and R206, `LD Vx, DT` and `LD ST, Vx`, and what the tick of the same step makes of them: the
value read is DT before the tick, and ST set to k is k - 1 after the step, so that the host hears a
tone at the end of that step exactly when k is greater than 1. The numbers Fx07 and Fx18 are GK1 and
GK3 (log 10), and the tick of the same step is D11 (log 21). -/
def Obligations.TimerReadAndSoundSet : Prop :=
  SelectedBy 0xF0FF#16 0xF007#16 (fun w => .ldVxDt (Field.x w))
  ∧ SelectedBy 0xF0FF#16 0xF018#16 (fun w => .ldStVx (Field.x w))
  ∧ (∀ (x : Reg) (s : State),
    (∃ t, exec (.ldVxDt x) s = .next t ∧ ChangesOnly { regs := [x] } s t ∧ t.reg x = s.dt)
    ∧ ∃ t, exec (.ldStVx x) s = .next t ∧ ChangesOnly { st := true } s t ∧ t.st = s.reg x)
  ∧ ∀ (x : Reg) (s : State) (w : Word), s.fetch = some w →
    (decode w = .ldVxDt x →
      ∃ t, step s = .next t ∧ t.reg x = s.dt ∧ t.dt.toNat = s.dt.toNat - 1)
    ∧ (decode w = .ldStVx x → ∃ t, step s = .next t ∧ t.st.toNat = (s.reg x).toNat - 1
        ∧ (t.toneOn = true ↔ (s.reg x).toNat > 1))

/-- R205, `LD DT, Vx`: DT is V[x], and V[x] - 1 (or 0) at the end of the same step. The timer then goes
down by one in every further step of a run that sets it no more, so that DT is 0 after k - 1 steps
and stays 0; R205 itself marks that as derived from R105. The number Fx15 is GK1 and GK3 (log 10),
and the tick of every step is D11 (log 21). -/
def Obligations.DelaySetRunsDown : Prop :=
  SelectedBy 0xF0FF#16 0xF015#16 (fun w => .ldDtVx (Field.x w))
  ∧ (∀ (x : Reg) (s : State),
    ∃ t, exec (.ldDtVx x) s = .next t ∧ ChangesOnly { dt := true } s t ∧ t.dt = s.reg x)
  ∧ (∀ (x : Reg) (s : State) (w : Word), s.fetch = some w → decode w = .ldDtVx x →
    ∃ t, step s = .next t ∧ t.dt.toNat = (s.reg x).toNat - 1)
  ∧ ∀ (n : Nat) (s t : State), Host.Core.run Sys2Proof.core n s = .next t →
    (∀ m u w x, m < n → Host.Core.run Sys2Proof.core m s = .next u → u.fetch = some w →
      decode w ≠ .ldDtVx x) →
    t.dt.toNat = s.dt.toNat - n
end

