-- ==== Sys2Proof/Laws/Decode.lean ====
section
/-! SUPPORT. The small laws of fields, formats and masks: each format as a number, each field of each
format, and what masking an opcode leaves. Proofs about encodings cite these and `omega`, and never
unfold an append. -/

namespace Sys2Proof

theorem toNat_append_eq {n m : Nat} (a : BitVec n) (b : BitVec m) :
    (a ++ b).toNat = a.toNat * 2 ^ m + b.toNat := by
  rw [BitVec.toNat_append, Nat.shiftLeft_eq, mul_comm, Nat.two_pow_add_eq_or_of_lt b.isLt]

/-! ## Formats and fields as numbers -/

theorem Format.z_toNat (ign : BitVec 8) (sub4 : Nibble) :
    (Format.z ign sub4).toNat = ign.toNat * 16 + sub4.toNat := by
  show ((0x0#4 ++ ign) ++ sub4 : BitVec (4 + 8 + 4)).toNat = _
  rw [toNat_append_eq, toNat_append_eq]
  simp

theorem Format.a_toNat (op : Nibble) (nnn : Addr) :
    (Format.a op nnn).toNat = op.toNat * 4096 + nnn.toNat := by
  show (op ++ nnn : BitVec (4 + 12)).toNat = _
  exact toNat_append_eq op nnn

theorem Format.xk_toNat (op : Nibble) (x : Reg) (kk : Byte) :
    (Format.xk op x kk).toNat = op.toNat * 4096 + x.toNat * 256 + kk.toNat := by
  show ((op ++ x) ++ kk : BitVec (4 + 4 + 8)).toNat = _
  rw [toNat_append_eq, toNat_append_eq]
  omega

theorem Format.xyn_toNat (op : Nibble) (x y : Reg) (n : Nibble) :
    (Format.xyn op x y n).toNat = op.toNat * 4096 + x.toNat * 256 + y.toNat * 16 + n.toNat := by
  show (((op ++ x) ++ y) ++ n : BitVec (4 + 4 + 4 + 4)).toNat = _
  rw [toNat_append_eq, toNat_append_eq, toNat_append_eq]
  omega

theorem joinBytes_toNat (hi lo : Byte) : (joinBytes hi lo).toNat = hi.toNat * 256 + lo.toNat := by
  show (hi ++ lo : BitVec (8 + 8)).toNat = _
  exact toNat_append_eq hi lo

theorem Field.op_toNat (w : Word) : (Field.op w).toNat = w.toNat / 4096 := by
  simp only [Field.op, BitVec.extractLsb'_toNat, Nat.shiftRight_eq_div_pow]
  omega

theorem Field.x_toNat (w : Word) : (Field.x w).toNat = w.toNat / 256 % 16 := by
  simp only [Field.x, BitVec.extractLsb'_toNat, Nat.shiftRight_eq_div_pow, Nat.reducePow]

theorem Field.y_toNat (w : Word) : (Field.y w).toNat = w.toNat / 16 % 16 := by
  simp only [Field.y, BitVec.extractLsb'_toNat, Nat.shiftRight_eq_div_pow, Nat.reducePow]

theorem Field.n_toNat (w : Word) : (Field.n w).toNat = w.toNat % 16 := by
  simp only [Field.n, BitVec.extractLsb'_toNat, Nat.shiftRight_eq_div_pow]
  omega

theorem Field.kk_toNat (w : Word) : (Field.kk w).toNat = w.toNat % 256 := by
  simp only [Field.kk, BitVec.extractLsb'_toNat, Nat.shiftRight_eq_div_pow]
  omega

theorem Field.nnn_toNat (w : Word) : (Field.nnn w).toNat = w.toNat % 4096 := by
  simp only [Field.nnn, BitVec.extractLsb'_toNat, Nat.shiftRight_eq_div_pow]
  omega

theorem Field.ignZ_toNat (w : Word) : (Field.ignZ w).toNat = w.toNat / 16 % 256 := by
  simp only [Field.ignZ, BitVec.extractLsb'_toNat, Nat.shiftRight_eq_div_pow, Nat.reducePow]

/-! ## The fields of each format -/

@[simp] theorem Field.op_z (ign : BitVec 8) (sub4 : Nibble) : Field.op (Format.z ign sub4) = 0x0#4 := by
  have := ign.isLt; have := sub4.isLt
  apply BitVec.eq_of_toNat_eq; rw [Field.op_toNat, Format.z_toNat]; simp; omega

@[simp] theorem Field.n_z (ign : BitVec 8) (sub4 : Nibble) : Field.n (Format.z ign sub4) = sub4 := by
  have := sub4.isLt
  apply BitVec.eq_of_toNat_eq; rw [Field.n_toNat, Format.z_toNat]; omega

@[simp] theorem Field.ignZ_z (ign : BitVec 8) (sub4 : Nibble) : Field.ignZ (Format.z ign sub4) = ign := by
  have := ign.isLt; have := sub4.isLt
  apply BitVec.eq_of_toNat_eq; rw [Field.ignZ_toNat, Format.z_toNat]; omega

@[simp] theorem Field.op_a (op : Nibble) (nnn : Addr) : Field.op (Format.a op nnn) = op := by
  have := nnn.isLt
  apply BitVec.eq_of_toNat_eq; rw [Field.op_toNat, Format.a_toNat]; omega

@[simp] theorem Field.nnn_a (op : Nibble) (nnn : Addr) : Field.nnn (Format.a op nnn) = nnn := by
  have := nnn.isLt
  apply BitVec.eq_of_toNat_eq; rw [Field.nnn_toNat, Format.a_toNat]; omega

@[simp] theorem Field.op_xk (op : Nibble) (x : Reg) (kk : Byte) : Field.op (Format.xk op x kk) = op := by
  have := x.isLt; have := kk.isLt
  apply BitVec.eq_of_toNat_eq; rw [Field.op_toNat, Format.xk_toNat]; omega

@[simp] theorem Field.x_xk (op : Nibble) (x : Reg) (kk : Byte) : Field.x (Format.xk op x kk) = x := by
  have := x.isLt; have := kk.isLt
  apply BitVec.eq_of_toNat_eq; rw [Field.x_toNat, Format.xk_toNat]; omega

@[simp] theorem Field.kk_xk (op : Nibble) (x : Reg) (kk : Byte) : Field.kk (Format.xk op x kk) = kk := by
  have := kk.isLt
  apply BitVec.eq_of_toNat_eq; rw [Field.kk_toNat, Format.xk_toNat]; omega

@[simp] theorem Field.op_xyn (op : Nibble) (x y : Reg) (n : Nibble) :
    Field.op (Format.xyn op x y n) = op := by
  have := x.isLt; have := y.isLt; have := n.isLt
  apply BitVec.eq_of_toNat_eq; rw [Field.op_toNat, Format.xyn_toNat]; omega

@[simp] theorem Field.x_xyn (op : Nibble) (x y : Reg) (n : Nibble) :
    Field.x (Format.xyn op x y n) = x := by
  have := x.isLt; have := y.isLt; have := n.isLt
  apply BitVec.eq_of_toNat_eq; rw [Field.x_toNat, Format.xyn_toNat]; omega

@[simp] theorem Field.y_xyn (op : Nibble) (x y : Reg) (n : Nibble) :
    Field.y (Format.xyn op x y n) = y := by
  have := y.isLt; have := n.isLt
  apply BitVec.eq_of_toNat_eq; rw [Field.y_toNat, Format.xyn_toNat]; omega

@[simp] theorem Field.n_xyn (op : Nibble) (x y : Reg) (n : Nibble) :
    Field.n (Format.xyn op x y n) = n := by
  have := n.isLt
  apply BitVec.eq_of_toNat_eq; rw [Field.n_toNat, Format.xyn_toNat]; omega

/-! ## An opcode is each format of its own fields -/

theorem Format.xyn_fields (w : Word) :
    Format.xyn (Field.op w) (Field.x w) (Field.y w) (Field.n w) = w := by
  apply BitVec.eq_of_toNat_eq
  rw [Format.xyn_toNat, Field.op_toNat, Field.x_toNat, Field.y_toNat, Field.n_toNat]
  omega

theorem Format.xk_fields (w : Word) : Format.xk (Field.op w) (Field.x w) (Field.kk w) = w := by
  apply BitVec.eq_of_toNat_eq
  rw [Format.xk_toNat, Field.op_toNat, Field.x_toNat, Field.kk_toNat]
  omega

theorem Format.a_fields (w : Word) : Format.a (Field.op w) (Field.nnn w) = w := by
  apply BitVec.eq_of_toNat_eq
  rw [Format.a_toNat, Field.op_toNat, Field.nnn_toNat]
  omega

theorem Format.z_fields (w : Word) (h : Field.op w = 0x0#4) :
    Format.z (Field.ignZ w) (Field.n w) = w := by
  have h' : w.toNat / 4096 = 0 := by rw [← Field.op_toNat, h]; rfl
  apply BitVec.eq_of_toNat_eq
  rw [Format.z_toNat, Field.ignZ_toNat, Field.n_toNat]
  omega

/-- The no-op space of R86, in numbers of the fields. -/
theorem noOpWord_iff (w : Word) : noOpWord w = true ↔
    ((Field.op w).toNat = 0x0 ∧ (Field.n w).toNat ≠ 0x0 ∧ (Field.n w).toNat ≠ 0xE)
    ∨ ((Field.op w).toNat = 0x8 ∧ 0x8 ≤ (Field.n w).toNat ∧ (Field.n w).toNat ≠ 0xE)
    ∨ ((Field.op w).toNat = 0xE ∧ (Field.n w).toNat ≠ 0x1 ∧ (Field.n w).toNat ≠ 0xE)
    ∨ ((Field.op w).toNat = 0xF ∧
        (Field.kk w).toNat ∉ [0x07, 0x0A, 0x15, 0x18, 0x1E, 0x29, 0x33, 0x55, 0x65]) := by
  have hn := (Field.n w).isLt
  change ((((Field.op w).toNat == 0x0 && !([0x0, 0xE].contains (Field.n w).toNat))
    || ((Field.op w).toNat == 0x8
        && [0x8, 0x9, 0xA, 0xB, 0xC, 0xD, 0xF].contains (Field.n w).toNat))
    || ((Field.op w).toNat == 0xE && !([0x1, 0xE].contains (Field.n w).toNat))
    || ((Field.op w).toNat == 0xF
        && !([0x07, 0x0A, 0x15, 0x18, 0x1E, 0x29, 0x33, 0x55, 0x65].contains (Field.kk w).toNat)))
    = true ↔ _
  generalize (Field.op w).toNat = op at *
  generalize (Field.n w).toNat = n at *
  generalize (Field.kk w).toNat = kk at *
  simp only [Bool.or_eq_true, Bool.and_eq_true, beq_iff_eq, Bool.not_eq_true', List.contains_iff_mem,
    Bool.eq_false_iff, ne_eq, List.mem_cons, List.not_mem_nil, or_false, not_or]
  omega

/-! ## Masks (R85) -/

theorem mask_op (w : Word) : (w &&& 0xF000#16).toNat = (Field.op w).toNat * 4096 := by
  have h : w &&& 0xF000#16 = w >>> 12 <<< 12 := by
    apply BitVec.eq_of_getLsbD_eq; intro i hi
    interval_cases i <;> simp
  rw [h, Field.op_toNat, BitVec.toNat_shiftLeft, BitVec.toNat_ushiftRight]
  have := w.isLt
  simp only [Nat.shiftLeft_eq, Nat.shiftRight_eq_div_pow]; omega

theorem mask_low4 (w : Word) : (w &&& 0x000F#16).toNat = (Field.n w).toNat := by
  rw [BitVec.toNat_and, Field.n_toNat]
  exact Nat.and_two_pow_sub_one_eq_mod w.toNat 4

theorem mask_low8 (w : Word) : (w &&& 0x00FF#16).toNat = (Field.kk w).toNat := by
  rw [BitVec.toNat_and, Field.kk_toNat]
  exact Nat.and_two_pow_sub_one_eq_mod w.toNat 8

theorem mask_op_n (w : Word) :
    (w &&& 0xF00F#16).toNat = (Field.op w).toNat * 4096 + (Field.n w).toNat := by
  have h : w &&& 0xF00F#16 = (w &&& 0xF000#16) + (w &&& 0x000F#16) := by
    rw [BitVec.add_eq_or_of_and_eq_zero]
    · apply BitVec.eq_of_getLsbD_eq; intro i hi
      interval_cases i <;> simp
    · apply BitVec.eq_of_getLsbD_eq; intro i hi
      interval_cases i <;> simp
  rw [h, BitVec.toNat_add, mask_op, mask_low4]
  have := (Field.op w).isLt; have := (Field.n w).isLt
  omega

theorem mask_op_kk (w : Word) :
    (w &&& 0xF0FF#16).toNat = (Field.op w).toNat * 4096 + (Field.kk w).toNat := by
  have h : w &&& 0xF0FF#16 = (w &&& 0xF000#16) + (w &&& 0x00FF#16) := by
    rw [BitVec.add_eq_or_of_and_eq_zero]
    · apply BitVec.eq_of_getLsbD_eq; intro i hi
      interval_cases i <;> simp
    · apply BitVec.eq_of_getLsbD_eq; intro i hi
      interval_cases i <;> simp
  rw [h, BitVec.toNat_add, mask_op, mask_low8]
  have := (Field.op w).isLt; have := (Field.kk w).isLt
  omega

/-! ## Bytes of an opcode -/

theorem decodeBytes_wordBytes (w : Word) (rest : List Byte) :
    decodeBytes (wordBytes w ++ rest) = .ok (decode w, rest) := by
  have h : joinBytes (w.extractLsb' 8 8) (w.extractLsb' 0 8) = w := by
    apply BitVec.eq_of_toNat_eq
    rw [joinBytes_toNat, BitVec.extractLsb'_toNat, BitVec.extractLsb'_toNat]
    have := w.isLt
    simp only [Nat.shiftRight_eq_div_pow]; omega
  simp [wordBytes, decodeBytes, h]

end Sys2Proof
end

