-- ==== Sys2Proof/Laws/Memory.lean ====
section
/-! SUPPORT. The laws of memory: every operation keeps the canonical form, a read after a write gives
the value written there and the old value everywhere else, and the same for blocks of bytes. -/

namespace Sys2Proof.Machine

theorem Memory.wf_cons (a : Nat) (v : Byte) (m : Memory) :
    Memory.wf ((a, v) :: m) = true
      ↔ a < 4096 ∧ v ≠ unlisted a ∧ (∀ c ∈ m, a < c.1) ∧ Memory.wf m = true := by
  simp [Memory.wf, and_assoc]

@[simp] theorem Memory.wf_nil : Memory.wf [] = true := rfl

@[simp] theorem Memory.read_nil (a : Nat) : Memory.read [] a = unlisted a := rfl

theorem Memory.read_cons (b : Nat) (w : Byte) (m : Memory) (a : Nat) :
    Memory.read ((b, w) :: m) a = if b = a then w else Memory.read m a := rfl

/-- An address below every listed one reads as unlisted. -/
theorem Memory.read_of_lt {m : Memory} {a : Nat} (h : ∀ c ∈ m, a < c.1) : m.read a = unlisted a := by
  induction m with
  | nil => rfl
  | cons c m ih =>
    obtain ⟨b, w⟩ := c
    have hb : a < b := h (b, w) (by simp)
    rw [Memory.read_cons, if_neg (by omega)]
    exact ih fun c hc => h c (by simp [hc])

/-- The keys of a memory after a write are old keys or the address written. -/
theorem Memory.mem_write {m : Memory} {a : Nat} {v : Byte} {c : Host.Cell} (h : c ∈ m.write a v) :
    c ∈ m ∨ c.1 = a := by
  induction m with
  | nil =>
    simp only [Memory.write] at h
    split at h
    · simp at h
    · simp at h; exact .inr (by rw [h])
  | cons d m ih =>
    obtain ⟨b, w⟩ := d
    simp only [Memory.write] at h
    split_ifs at h
    · exact .inl h
    · rcases List.mem_cons.1 h with rfl | h
      · exact .inr rfl
      · exact .inl h
    · exact .inl (List.mem_cons_of_mem _ h)
    · rcases List.mem_cons.1 h with rfl | h
      · exact .inr rfl
      · exact .inl (List.mem_cons_of_mem _ h)
    · rcases List.mem_cons.1 h with rfl | h
      · exact .inl (by simp)
      · exact (ih h).imp (List.mem_cons_of_mem _) id

/-- A write keeps the canonical form. -/
theorem Memory.wf_write {m : Memory} {a : Nat} {v : Byte} (ha : a < 4096) (h : m.wf = true) :
    (m.write a v).wf = true := by
  induction m with
  | nil =>
    simp only [Memory.write]
    split_ifs with e
    · rfl
    · rw [Memory.wf_cons]; exact ⟨ha, e, by simp, rfl⟩
  | cons d m ih =>
    obtain ⟨b, w⟩ := d
    have h' := (Memory.wf_cons b w m).1 h
    obtain ⟨hb, hw, hlt, hm⟩ := h'
    simp only [Memory.write]
    split_ifs with h1 h2 h3 h4
    · exact h
    · rw [Memory.wf_cons]
      refine ⟨ha, h2, ?_, h⟩
      rintro c (_ | ⟨_, hc⟩)
      · exact h1
      · have := hlt c hc; omega
    · exact hm
    · subst h3; rw [Memory.wf_cons]; exact ⟨ha, h4, hlt, hm⟩
    · rw [Memory.wf_cons]
      refine ⟨hb, hw, ?_, ih hm⟩
      intro c hc
      rcases Memory.mem_write hc with hc | hc
      · exact hlt c hc
      · omega

/-- A write leaves every other address alone. -/
theorem Memory.read_write_ne {m : Memory} {a b : Nat} {v : Byte} (h : b ≠ a) :
    (m.write a v).read b = m.read b := by
  induction m with
  | nil =>
    simp only [Memory.write]
    split_ifs
    · rfl
    · rw [Memory.read_cons, if_neg (Ne.symm h)]
  | cons d m ih =>
    obtain ⟨k, w⟩ := d
    simp only [Memory.write]
    split_ifs with h1 h2 h3 h4
    · rfl
    · rw [Memory.read_cons, if_neg (Ne.symm h)]
    · rw [Memory.read_cons, if_neg (by omega)]
    · rw [Memory.read_cons, if_neg (Ne.symm h), Memory.read_cons, if_neg (by omega)]
    · rw [Memory.read_cons, Memory.read_cons, ih]

/-- A read after a write to the same address gives the value written. -/
theorem Memory.read_write_self {m : Memory} {a : Nat} {v : Byte} (h : m.wf = true) :
    (m.write a v).read a = v := by
  induction m with
  | nil =>
    simp only [Memory.write]
    split_ifs with e
    · rw [Memory.read_nil, e]
    · rw [Memory.read_cons, if_pos rfl]
  | cons d m ih =>
    obtain ⟨k, w⟩ := d
    obtain ⟨-, -, hlt, hm⟩ := (Memory.wf_cons k w m).1 h
    simp only [Memory.write]
    split_ifs with h1 h2 h3 h4
    · rw [Memory.read_cons, if_neg (by omega), h2]
      exact Memory.read_of_lt fun c hc => by have := hlt c hc; omega
    · rw [Memory.read_cons, if_pos rfl]
    · subst h3; rw [h4]; exact Memory.read_of_lt hlt
    · rw [Memory.read_cons, if_pos rfl]
    · rw [Memory.read_cons, if_neg (Ne.symm h3), ih hm]

/-- A block of stores keeps the canonical form. -/
theorem Memory.wf_writeBytes {bs : List Byte} {m : Memory} {a : Nat} (ha : a + bs.length ≤ 4096)
    (h : m.wf = true) : (m.writeBytes a bs).wf = true := by
  induction bs generalizing m a with
  | nil => exact h
  | cons b bs ih =>
    simp only [List.length_cons] at ha
    exact ih (by omega) (Memory.wf_write (by omega) h)

/-- A block of stores leaves every address outside the block alone. -/
theorem Memory.read_writeBytes_outside {bs : List Byte} {m : Memory} {a c : Nat}
    (h : ¬(a ≤ c ∧ c < a + bs.length)) : (m.writeBytes a bs).read c = m.read c := by
  induction bs generalizing m a with
  | nil => rfl
  | cons b bs ih =>
    simp only [List.length_cons] at h
    rw [Memory.writeBytes, ih (by omega), Memory.read_write_ne (by omega)]

/-- A block of stores leaves the `k`-th byte of the list at the `k`-th address. -/
theorem Memory.read_writeBytes_inside {bs : List Byte} {m : Memory} {a k : Nat} {b : Byte}
    (ha : a + bs.length ≤ 4096) (h : m.wf = true) (hk : bs[k]? = some b) :
    (m.writeBytes a bs).read (a + k) = b := by
  induction bs generalizing m a k with
  | nil => simp at hk
  | cons b0 bs ih =>
    simp only [List.length_cons] at ha
    cases k with
    | zero =>
      simp only [List.getElem?_cons_zero, Option.some.injEq] at hk
      subst hk
      rw [Memory.writeBytes, Memory.read_writeBytes_outside (by omega), Nat.add_zero,
        Memory.read_write_self h]
    | succ k =>
      rw [List.getElem?_cons_succ] at hk
      have := ih (m := m.write a b0) (a := a + 1) (by omega) (Memory.wf_write (by omega) h) hk
      rw [Memory.writeBytes]
      rwa [show a + (k + 1) = a + 1 + k by omega]

/-- The memory after reset is in canonical form, whatever `FONT` is. -/
theorem resetWith_mem_wf (p : Params) : (State.resetWith p).mem.wf = true :=
  Memory.wf_writeBytes (by simp) rfl

/-- A byte of `FONT`, after reset, at its place. -/
theorem resetWith_mem_read_font (p : Params) (k : Fin 80) :
    (State.resetWith p).mem.read (0x050 + k.val) = p.font[k.val] :=
  Memory.read_writeBytes_inside (m := State.reset.mem) (by simp) rfl (by simp)

/-- After reset every byte outside the font is the same whatever `FONT` is. -/
theorem resetWith_mem_read_outside (p : Params) {a : Nat} (h : ¬(0x050 ≤ a ∧ a < 0x050 + 80)) :
    (State.resetWith p).mem.read a = unlisted a :=
  Memory.read_writeBytes_outside (by simpa using h)

theorem Memory.readBytes_length (m : Memory) (a n : Nat) : (m.readBytes a n).length = n := by
  induction n generalizing a with
  | zero => rfl
  | succ n ih => simp [Memory.readBytes, ih]

theorem Memory.readBytes_getElem? (m : Memory) (a n k : Nat) (h : k < n) :
    (m.readBytes a n)[k]? = some (m.read (a + k)) := by
  induction n generalizing a k with
  | zero => omega
  | succ n ih =>
    cases k with
    | zero => simp [Memory.readBytes]
    | succ k =>
      simp only [Memory.readBytes, List.getElem?_cons_succ]
      rw [ih (a + 1) k (by omega)]
      congr 2; omega

end Sys2Proof.Machine
end

