-- ==== Sys2Proof/Laws/State.lean ====
section
/-! SUPPORT. One lemma per field and update, so that no proof unfolds a record update, and the laws of
the register file. -/

namespace Sys2Proof.Machine

@[simp] theorem reg_setReg (s : State) (r q : Reg) (b : Byte) :
    (s.setReg r b).reg q = if q = r then b else s.reg q := by
  simp only [State.reg, State.setReg, Vector.getElem_set, ← BitVec.toNat_inj, eq_comm]

theorem reg_setReg_self (s : State) (r : Reg) (b : Byte) : (s.setReg r b).reg r = b := by simp

theorem reg_setReg_ne (s : State) (r q : Reg) (b : Byte) (h : q ≠ r) :
    (s.setReg r b).reg q = s.reg q := by simp [h]

@[simp] theorem setReg_i (s : State) (r : Reg) (b : Byte) : (s.setReg r b).i = s.i := rfl
@[simp] theorem setReg_pc (s : State) (r : Reg) (b : Byte) : (s.setReg r b).pc = s.pc := rfl
@[simp] theorem setReg_stk (s : State) (r : Reg) (b : Byte) : (s.setReg r b).stk = s.stk := rfl
@[simp] theorem setReg_sp (s : State) (r : Reg) (b : Byte) : (s.setReg r b).sp = s.sp := rfl
@[simp] theorem setReg_dt (s : State) (r : Reg) (b : Byte) : (s.setReg r b).dt = s.dt := rfl
@[simp] theorem setReg_st (s : State) (r : Reg) (b : Byte) : (s.setReg r b).st = s.st := rfl
@[simp] theorem setReg_key (s : State) (r : Reg) (b : Byte) : (s.setReg r b).key = s.key := rfl
@[simp] theorem setReg_vid (s : State) (r : Reg) (b : Byte) : (s.setReg r b).vid = s.vid := rfl
@[simp] theorem setReg_mem (s : State) (r : Reg) (b : Byte) : (s.setReg r b).mem = s.mem := rfl
@[simp] theorem setReg_rndIndex (s : State) (r : Reg) (b : Byte) :
    (s.setReg r b).rndIndex = s.rndIndex := rfl

@[simp] theorem setPc_pc (s : State) (w : Word) : (s.setPc w).pc = w := rfl
@[simp] theorem setPc_reg (s : State) (w : Word) (r : Reg) : (s.setPc w).reg r = s.reg r := rfl
@[simp] theorem setPc_v (s : State) (w : Word) : (s.setPc w).v = s.v := rfl
@[simp] theorem setPc_i (s : State) (w : Word) : (s.setPc w).i = s.i := rfl
@[simp] theorem setPc_stk (s : State) (w : Word) : (s.setPc w).stk = s.stk := rfl
@[simp] theorem setPc_sp (s : State) (w : Word) : (s.setPc w).sp = s.sp := rfl
@[simp] theorem setPc_dt (s : State) (w : Word) : (s.setPc w).dt = s.dt := rfl
@[simp] theorem setPc_st (s : State) (w : Word) : (s.setPc w).st = s.st := rfl
@[simp] theorem setPc_key (s : State) (w : Word) : (s.setPc w).key = s.key := rfl
@[simp] theorem setPc_vid (s : State) (w : Word) : (s.setPc w).vid = s.vid := rfl
@[simp] theorem setPc_mem (s : State) (w : Word) : (s.setPc w).mem = s.mem := rfl
@[simp] theorem setPc_rndIndex (s : State) (w : Word) : (s.setPc w).rndIndex = s.rndIndex := rfl

@[simp] theorem setI_i (s : State) (w : Word) : (s.setI w).i = w := rfl
@[simp] theorem setI_reg (s : State) (w : Word) (r : Reg) : (s.setI w).reg r = s.reg r := rfl
@[simp] theorem setI_v (s : State) (w : Word) : (s.setI w).v = s.v := rfl
@[simp] theorem setI_pc (s : State) (w : Word) : (s.setI w).pc = s.pc := rfl
@[simp] theorem setI_stk (s : State) (w : Word) : (s.setI w).stk = s.stk := rfl
@[simp] theorem setI_sp (s : State) (w : Word) : (s.setI w).sp = s.sp := rfl
@[simp] theorem setI_dt (s : State) (w : Word) : (s.setI w).dt = s.dt := rfl
@[simp] theorem setI_st (s : State) (w : Word) : (s.setI w).st = s.st := rfl
@[simp] theorem setI_key (s : State) (w : Word) : (s.setI w).key = s.key := rfl
@[simp] theorem setI_vid (s : State) (w : Word) : (s.setI w).vid = s.vid := rfl
@[simp] theorem setI_mem (s : State) (w : Word) : (s.setI w).mem = s.mem := rfl
@[simp] theorem setI_rndIndex (s : State) (w : Word) : (s.setI w).rndIndex = s.rndIndex := rfl

/-- A value written into PC or I lies below 4096 (R22, R23). -/
@[simp] theorem wrap_toNat (n : Nat) : (wrap n).toNat = n % 4096 := by
  simp only [wrap, BitVec.toNat_ofNat]; omega

@[simp] theorem zextAddr_toNat (nnn : Addr) : (zextAddr nnn).toNat = nnn.toNat := by
  have := nnn.isLt
  simp only [zextAddr, BitVec.toNat_setWidth]; omega

theorem glyphAddress_toNat (v : Byte) : (glyphAddress v).toNat = 0x050 + 5 * v.toNat := by
  have := v.isLt
  simp only [glyphAddress, BitVec.toNat_ofNat]; omega

theorem advance_pc_toNat (s : State) : s.advance.pc.toNat = (s.pc.toNat + 2) % 4096 := by
  simp [State.advance]

theorem rollBack_pc_toNat (s : State) : s.rollBack.pc.toNat = (s.pc.toNat + 4094) % 4096 := by
  simp [State.rollBack]

/-- Rolling back undoes the advance (R204). -/
theorem rollBack_advance (s : State) (h : s.pc.toNat < 4096) : s.advance.rollBack = s := by
  have e : wrap ((wrap (s.pc.toNat + 2)).toNat + 4094) = s.pc := by
    apply BitVec.eq_of_toNat_eq
    simp only [wrap_toNat]; omega
  show s.setPc (wrap ((wrap (s.pc.toNat + 2)).toNat + 4094)) = s
  rw [e]; rfl

@[simp] theorem tick_reg (s : State) (r : Reg) : s.tick.reg r = s.reg r := rfl
@[simp] theorem tick_v (s : State) : s.tick.v = s.v := rfl
@[simp] theorem tick_i (s : State) : s.tick.i = s.i := rfl
@[simp] theorem tick_pc (s : State) : s.tick.pc = s.pc := rfl
@[simp] theorem tick_stk (s : State) : s.tick.stk = s.stk := rfl
@[simp] theorem tick_sp (s : State) : s.tick.sp = s.sp := rfl
@[simp] theorem tick_dt (s : State) : s.tick.dt = tickTimer s.dt := rfl
@[simp] theorem tick_st (s : State) : s.tick.st = tickTimer s.st := rfl
@[simp] theorem tick_key (s : State) : s.tick.key = s.key := rfl
@[simp] theorem tick_vid (s : State) : s.tick.vid = s.vid := rfl
@[simp] theorem tick_mem (s : State) : s.tick.mem = s.mem := rfl
@[simp] theorem tick_rndIndex (s : State) : s.tick.rndIndex = s.rndIndex := rfl

/-- A tick takes one off, and 0 stays 0 (R105). -/
theorem tickTimer_toNat (t : Byte) : (tickTimer t).toNat = t.toNat - 1 := by
  have := t.isLt
  by_cases h : t = 0#8
  · simp [tickTimer, h]
  · have h' : t.toNat ≠ 0 := fun e => h (BitVec.eq_of_toNat_eq (by simpa using e))
    simp only [tickTimer, if_neg h, BitVec.toNat_sub, BitVec.toNat_ofNat]
    omega

/-- What the shared bounds check can do: it answers the state it is given, or `memoryFault`. -/
theorem checked_cases (s : State) (last : Nat) (t : State) :
    (s.i.toNat + last ≤ 0xFFF ∧ s.checked last t = .next t)
      ∨ (s.i.toNat + last > 0xFFF ∧ s.checked last t = .fault .memoryFault) := by
  by_cases h : s.i.toNat + last > 0xFFF
  · exact .inr ⟨h, by simp [State.checked, State.ea, h, raise]⟩
  · exact .inl ⟨by omega, by simp [State.checked, State.ea, h]⟩

theorem checked_next {s t u : State} {last : Nat} :
    s.checked last t = .next u ↔ s.i.toNat + last ≤ 0xFFF ∧ u = t := by
  rcases checked_cases s last t with ⟨h, e⟩ | ⟨h, e⟩ <;> rw [e] <;> constructor
  · rintro ⟨⟩; exact ⟨h, rfl⟩
  · rintro ⟨-, rfl⟩; rfl
  · rintro ⟨⟩
  · rintro ⟨h', -⟩; omega

theorem checked_fault {s t : State} {last : Nat} {e : Fault} :
    s.checked last t = .fault e ↔ s.i.toNat + last > 0xFFF ∧ e = .memoryFault := by
  rcases checked_cases s last t with ⟨h, he⟩ | ⟨h, he⟩ <;> rw [he] <;> constructor
  · rintro ⟨⟩
  · rintro ⟨h', -⟩; omega
  · rintro ⟨⟩; exact ⟨h, rfl⟩
  · rintro ⟨-, rfl⟩; rfl

/-- The scan of the keys finds the least pressed key (R204). -/
theorem firstKey_eq_some {s : State} {k : Nibble} (hk : s.keyDown k = true)
    (hj : ∀ j : Nibble, j.toNat < k.toNat → s.keyDown j = false) : s.firstKey = some k := by
  have hlt := k.isLt
  rw [State.firstKey, List.find?_eq_some_iff_getElem]
  refine ⟨hk, k.toNat, by simpa using hlt, by simp, fun j hj' => ?_⟩
  simp only [List.getElem_map, List.getElem_range]
  rw [hj _ (by simp only [BitVec.toNat_ofNat]; omega)]
  rfl

/-- The scan finds nothing when no key is pressed (R204). -/
theorem firstKey_eq_none {s : State} (h : ∀ k, s.keyDown k = false) : s.firstKey = none := by
  simp [State.firstKey, h]

@[simp] theorem resetWith_v (p : Params) : (State.resetWith p).v = State.reset.v := rfl
@[simp] theorem resetWith_i (p : Params) : (State.resetWith p).i = State.reset.i := rfl
@[simp] theorem resetWith_pc (p : Params) : (State.resetWith p).pc = State.reset.pc := rfl
@[simp] theorem resetWith_stk (p : Params) : (State.resetWith p).stk = State.reset.stk := rfl
@[simp] theorem resetWith_sp (p : Params) : (State.resetWith p).sp = State.reset.sp := rfl
@[simp] theorem resetWith_dt (p : Params) : (State.resetWith p).dt = State.reset.dt := rfl
@[simp] theorem resetWith_st (p : Params) : (State.resetWith p).st = State.reset.st := rfl
@[simp] theorem resetWith_key (p : Params) : (State.resetWith p).key = State.reset.key := rfl
@[simp] theorem resetWith_vid (p : Params) : (State.resetWith p).vid = State.reset.vid := rfl
@[simp] theorem resetWith_rndIndex (p : Params) : (State.resetWith p).rndIndex = State.reset.rndIndex := rfl
@[simp] theorem resetWith_reg (p : Params) (r : Reg) : (State.resetWith p).reg r = State.reset.reg r := rfl

@[simp] theorem mapNext_next (f : State → State) (s : State) :
    mapNext f (.next s) = .next (f s) := rfl
@[simp] theorem mapNext_fault (f : State → State) (e : Fault) :
    mapNext f (.fault e) = .fault e := rfl
@[simp] theorem mapNext_refused (f : State → State) (r : Refusal) :
    mapNext f (.refused r) = .refused r := rfl

/-- A skip either advances PC once more or leaves the state as it is. -/
theorem skipIf_cases (s : State) (c : Bool) :
    (c = true ∧ s.skipIf c = s.advance) ∨ (c = false ∧ s.skipIf c = s) := by
  cases c <;> simp [State.skipIf]

theorem loadedRegs_reg (s : State) (x r : Reg) :
    ({ s with v := s.loadedRegs x } : State).reg r
      = if r.toNat ≤ x.toNat then s.mem.read (s.i.toNat + r.toNat) else s.reg r := by
  simp [State.reg, State.loadedRegs, State.ea]

theorem regBlock_length (s : State) (x : Reg) : (s.regBlock x).length = x.toNat + 1 := by
  have := x.isLt
  simp [State.regBlock]; omega

theorem regBlock_getElem (s : State) (x k : Reg) (h : k.toNat ≤ x.toNat) :
    (s.regBlock x)[k.toNat]? = some (s.reg k) := by
  have hk := k.isLt
  simp only [State.regBlock, State.reg, List.getElem?_take]
  rw [if_pos (by omega), List.getElem?_eq_getElem (by simpa using hk)]
  simp

end Sys2Proof.Machine
end

