-- ==== Sys2Proof/Laws/Frame.lean ====
section
/-! SUPPORT. The frame of each shared operation, in the terms of `ChangesOnly`: a proof about an
instruction cites the frames of the operations it is made of. -/

namespace Sys2Proof.Machine

/-- A state changes nothing against itself, whatever may change. -/
theorem ChangesOnly.rfl' (c : Changes) (s : State) : ChangesOnly c s s :=
  ⟨fun _ _ => rfl, fun _ => rfl, fun _ => rfl, fun _ => rfl, fun _ => rfl, fun _ => rfl, fun _ => rfl,
    fun _ => rfl, rfl, fun _ _ => rfl, fun _ => rfl⟩

theorem setReg_changesOnly (s : State) (x : Reg) (b : Byte) :
    ChangesOnly { regs := [x] } s (s.setReg x b) where
  regs r hr := reg_setReg_ne s x r b (by simpa using hr)
  i _ := rfl
  pc _ := rfl
  stk _ := rfl
  sp _ := rfl
  dt _ := rfl
  st _ := rfl
  vid _ := rfl
  key := rfl
  mem _ _ := rfl
  rndIndex _ := rfl

theorem setFlagThenReg_changesOnly (s : State) (x : Reg) (f b : Byte) :
    ChangesOnly { regs := [x, VF] } s (s.setFlagThenReg x f b) where
  regs r hr := by
    simp only [List.mem_cons, List.not_mem_nil, or_false, not_or] at hr
    simp [State.setFlagThenReg, hr.1, hr.2]
  i _ := rfl
  pc _ := rfl
  stk _ := rfl
  sp _ := rfl
  dt _ := rfl
  st _ := rfl
  vid _ := rfl
  key := rfl
  mem _ _ := rfl
  rndIndex _ := rfl

theorem setPc_changesOnly (s : State) (w : Word) : ChangesOnly { pc := true } s (s.setPc w) where
  regs _ _ := rfl
  i _ := rfl
  pc h := by cases h
  stk _ := rfl
  sp _ := rfl
  dt _ := rfl
  st _ := rfl
  vid _ := rfl
  key := rfl
  mem _ _ := rfl
  rndIndex _ := rfl

theorem advance_changesOnly (s : State) : ChangesOnly { pc := true } s s.advance :=
  setPc_changesOnly s _

theorem rollBack_changesOnly (s : State) : ChangesOnly { pc := true } s s.rollBack :=
  setPc_changesOnly s _

theorem skipIf_changesOnly (s : State) (c : Bool) : ChangesOnly { pc := true } s (s.skipIf c) := by
  rcases skipIf_cases s c with ⟨-, e⟩ | ⟨-, e⟩ <;> rw [e]
  · exact advance_changesOnly s
  · exact ChangesOnly.rfl' _ s

theorem setI_changesOnly (s : State) (w : Word) : ChangesOnly { i := true } s (s.setI w) where
  regs _ _ := rfl
  i h := by cases h
  pc _ := rfl
  stk _ := rfl
  sp _ := rfl
  dt _ := rfl
  st _ := rfl
  vid _ := rfl
  key := rfl
  mem _ _ := rfl
  rndIndex _ := rfl

theorem tick_changesOnly (s : State) : ChangesOnly { dt := true, st := true } s s.tick where
  regs _ _ := rfl
  i _ := rfl
  pc _ := rfl
  stk _ := rfl
  sp _ := rfl
  dt h := by cases h
  st h := by cases h
  vid _ := rfl
  key := rfl
  mem _ _ := rfl
  rndIndex _ := rfl

theorem setDt_changesOnly (s : State) (b : Byte) : ChangesOnly { dt := true } s { s with dt := b } where
  regs _ _ := rfl
  i _ := rfl
  pc _ := rfl
  stk _ := rfl
  sp _ := rfl
  dt h := by cases h
  st _ := rfl
  vid _ := rfl
  key := rfl
  mem _ _ := rfl
  rndIndex _ := rfl

theorem setSt_changesOnly (s : State) (b : Byte) : ChangesOnly { st := true } s { s with st := b } where
  regs _ _ := rfl
  i _ := rfl
  pc _ := rfl
  stk _ := rfl
  sp _ := rfl
  dt _ := rfl
  st h := by cases h
  vid _ := rfl
  key := rfl
  mem _ _ := rfl
  rndIndex _ := rfl

theorem setVid_changesOnly (s : State) (v : Screen) : ChangesOnly { vid := true } s { s with vid := v } where
  regs _ _ := rfl
  i _ := rfl
  pc _ := rfl
  stk _ := rfl
  sp _ := rfl
  dt _ := rfl
  st _ := rfl
  vid h := by cases h
  key := rfl
  mem _ _ := rfl
  rndIndex _ := rfl

theorem setVidVf_changesOnly (s : State) (v : Screen) (f : Byte) :
    ChangesOnly { regs := [VF], vid := true } s (({ s with vid := v } : State).setReg VF f) where
  regs r hr := reg_setReg_ne _ VF r f (by simpa using hr)
  i _ := rfl
  pc _ := rfl
  stk _ := rfl
  sp _ := rfl
  dt _ := rfl
  st _ := rfl
  vid h := by cases h
  key := rfl
  mem _ _ := rfl
  rndIndex _ := rfl

theorem storeBytes_changesOnly (s : State) (a : Nat) (bs : List Byte) :
    ChangesOnly { storeAt := a, storeLen := bs.length } s { s with mem := s.mem.writeBytes a bs } where
  regs _ _ := rfl
  i _ := rfl
  pc _ := rfl
  stk _ := rfl
  sp _ := rfl
  dt _ := rfl
  st _ := rfl
  vid _ := rfl
  key := rfl
  mem _ h := Memory.read_writeBytes_outside h
  rndIndex _ := rfl

theorem mem_regsUpTo (x r : Reg) : r ∈ regsUpTo x ↔ r.toNat ≤ x.toNat := by
  have hr := r.isLt; have hx := x.isLt
  simp only [regsUpTo, List.mem_map, List.mem_range]
  constructor
  · rintro ⟨k, hk, rfl⟩
    simp only [BitVec.toNat_ofNat]; omega
  · intro h
    exact ⟨r.toNat, by omega, by simp⟩

theorem loadedRegs_changesOnly (s : State) (x : Reg) :
    ChangesOnly { regs := regsUpTo x } s { s with v := s.loadedRegs x } where
  regs r hr := by rw [loadedRegs_reg, if_neg (fun h => hr ((mem_regsUpTo x r).2 h))]
  i _ := rfl
  pc _ := rfl
  stk _ := rfl
  sp _ := rfl
  dt _ := rfl
  st _ := rfl
  vid _ := rfl
  key := rfl
  mem _ _ := rfl
  rndIndex _ := rfl

end Sys2Proof.Machine
end

