-- ==== Sys2Proof/Laws/PerInstr.lean ====
section
/-! SUPPORT. Statements about every instruction as syntax, one lemma per constructor. `FixedBits`: the
encoder puts the fixed bits of the instruction's row of the opcode map (`spec/30_encoding.md` R85)
where the row's mask looks for them. -/

namespace Sys2Proof.Laws.FixedBits

/-- The encoding of the instruction selects the row of the opcode map it stands in. -/
def Statement (i : Instr) : Prop := ∀ r, i.row = some r → r.selects (encode i) = true

theorem of_mask_op {w v : Word} (h : (Field.op w).toNat * 4096 = v.toNat) :
    Row.selects ⟨0xF000#16, v⟩ w = true := by
  rw [Row.selects, beq_iff_eq]
  exact BitVec.eq_of_toNat_eq (by rw [mask_op, h])

theorem of_mask_op_n {w v : Word} (h : (Field.op w).toNat * 4096 + (Field.n w).toNat = v.toNat) :
    Row.selects ⟨0xF00F#16, v⟩ w = true := by
  rw [Row.selects, beq_iff_eq]
  exact BitVec.eq_of_toNat_eq (by rw [mask_op_n, h])

theorem of_mask_op_kk {w v : Word} (h : (Field.op w).toNat * 4096 + (Field.kk w).toNat = v.toNat) :
    Row.selects ⟨0xF0FF#16, v⟩ w = true := by
  rw [Row.selects, beq_iff_eq]
  exact BitVec.eq_of_toNat_eq (by rw [mask_op_kk, h])

theorem cls (ign : BitVec 8) : Statement (.cls ign) := by
  rintro r ⟨⟩; exact of_mask_op_n (by simp [encode])
theorem ret (ign : BitVec 8) : Statement (.ret ign) := by
  rintro r ⟨⟩; exact of_mask_op_n (by simp [encode])
theorem jp (nnn : Addr) : Statement (.jp nnn) := by
  rintro r ⟨⟩; exact of_mask_op (by simp [encode])
theorem call (nnn : Addr) : Statement (.call nnn) := by
  rintro r ⟨⟩; exact of_mask_op (by simp [encode])
theorem seImm (x : Reg) (kk : Byte) : Statement (.seImm x kk) := by
  rintro r ⟨⟩; exact of_mask_op (by simp [encode])
theorem sneImm (x : Reg) (kk : Byte) : Statement (.sneImm x kk) := by
  rintro r ⟨⟩; exact of_mask_op (by simp [encode])
theorem seReg (x y : Reg) (ign : Nibble) : Statement (.seReg x y ign) := by
  rintro r ⟨⟩; exact of_mask_op (by simp [encode])
theorem ldImm (x : Reg) (kk : Byte) : Statement (.ldImm x kk) := by
  rintro r ⟨⟩; exact of_mask_op (by simp [encode])
theorem addImm (x : Reg) (kk : Byte) : Statement (.addImm x kk) := by
  rintro r ⟨⟩; exact of_mask_op (by simp [encode])
theorem ldReg (x y : Reg) : Statement (.ldReg x y) := by
  rintro r ⟨⟩; exact of_mask_op_n (by simp [encode])
theorem orReg (x y : Reg) : Statement (.orReg x y) := by
  rintro r ⟨⟩; exact of_mask_op_n (by simp [encode])
theorem andReg (x y : Reg) : Statement (.andReg x y) := by
  rintro r ⟨⟩; exact of_mask_op_n (by simp [encode])
theorem xorReg (x y : Reg) : Statement (.xorReg x y) := by
  rintro r ⟨⟩; exact of_mask_op_n (by simp [encode])
theorem addReg (x y : Reg) : Statement (.addReg x y) := by
  rintro r ⟨⟩; exact of_mask_op_n (by simp [encode])
theorem subReg (x y : Reg) : Statement (.subReg x y) := by
  rintro r ⟨⟩; exact of_mask_op_n (by simp [encode])
theorem shr (x y : Reg) : Statement (.shr x y) := by
  rintro r ⟨⟩; exact of_mask_op_n (by simp [encode])
theorem subnReg (x y : Reg) : Statement (.subnReg x y) := by
  rintro r ⟨⟩; exact of_mask_op_n (by simp [encode])
theorem shl (x y : Reg) : Statement (.shl x y) := by
  rintro r ⟨⟩; exact of_mask_op_n (by simp [encode])
theorem sneReg (x y : Reg) (ign : Nibble) : Statement (.sneReg x y ign) := by
  rintro r ⟨⟩; exact of_mask_op (by simp [encode])
theorem ldI (nnn : Addr) : Statement (.ldI nnn) := by
  rintro r ⟨⟩; exact of_mask_op (by simp [encode])
theorem jpV0 (nnn : Addr) : Statement (.jpV0 nnn) := by
  rintro r ⟨⟩; exact of_mask_op (by simp [encode])
theorem rnd (x : Reg) (kk : Byte) : Statement (.rnd x kk) := by
  rintro r ⟨⟩; exact of_mask_op (by simp [encode])
theorem drw (x y : Reg) (n : Nibble) : Statement (.drw x y n) := by
  rintro r ⟨⟩; exact of_mask_op (by simp [encode])
theorem skp (x : Reg) (ign : Nibble) : Statement (.skp x ign) := by
  rintro r ⟨⟩; exact of_mask_op_n (by simp [encode])
theorem sknp (x : Reg) (ign : Nibble) : Statement (.sknp x ign) := by
  rintro r ⟨⟩; exact of_mask_op_n (by simp [encode])
theorem ldVxDt (x : Reg) : Statement (.ldVxDt x) := by
  rintro r ⟨⟩; exact of_mask_op_kk (by simp [encode])
theorem ldVxK (x : Reg) : Statement (.ldVxK x) := by
  rintro r ⟨⟩; exact of_mask_op_kk (by simp [encode])
theorem ldDtVx (x : Reg) : Statement (.ldDtVx x) := by
  rintro r ⟨⟩; exact of_mask_op_kk (by simp [encode])
theorem ldStVx (x : Reg) : Statement (.ldStVx x) := by
  rintro r ⟨⟩; exact of_mask_op_kk (by simp [encode])
theorem addI (x : Reg) : Statement (.addI x) := by
  rintro r ⟨⟩; exact of_mask_op_kk (by simp [encode])
theorem ldF (x : Reg) : Statement (.ldF x) := by
  rintro r ⟨⟩; exact of_mask_op_kk (by simp [encode])
theorem ldB (x : Reg) : Statement (.ldB x) := by
  rintro r ⟨⟩; exact of_mask_op_kk (by simp [encode])
theorem dump (x : Reg) : Statement (.dump x) := by
  rintro r ⟨⟩; exact of_mask_op_kk (by simp [encode])
theorem load (x : Reg) : Statement (.load x) := by
  rintro r ⟨⟩; exact of_mask_op_kk (by simp [encode])
/-- A no-op stands in no row. -/
theorem nop (w : Word) : Statement (.nop w) := by
  rintro r ⟨⟩

end Sys2Proof.Laws.FixedBits
end

