-- ==== Sys2Proof/Laws/Screen.lean ====
section
/-! SUPPORT. The laws of the screen: what one XORed cell changes, and then, pixel by pixel, byte by byte
and for a whole sprite, which cells a draw inverts and when it reports a hit. -/

namespace Sys2Proof.Machine

@[simp] theorem Screen.cell_blank (r : Fin 32) (c : Fin 64) : Screen.blank.cell r c = false := by
  simp [Screen.cell, Screen.blank]

/-- XOR into one cell changes that cell alone (R191). -/
theorem Screen.cell_xorCell (vid : Screen) (r r' : Fin 32) (c c' : Fin 64) (p : Bool) :
    (vid.xorCell r c p).cell r' c'
      = (vid.cell r' c' ^^ (decide (r' = r ∧ c' = c) && p)) := by
  have hc := c.isLt; have hc' := c'.isLt
  by_cases hr : r.val = r'.val
  · have hr' : r' = r := Fin.ext hr.symm
    subst hr'
    cases p
    · simp [Screen.cell, Screen.xorCell]
    · simp only [Screen.cell, Screen.xorCell, Vector.getElem_set_self, BitVec.getLsbD_xor, if_true,
        BitVec.getLsbD_twoPow, true_and, Bool.and_true]
      congr 1
      simp only [Fin.ext_iff]
      by_cases h : c'.val = c.val
      · simp [h, hc]
      · simp [h, Ne.symm h]
  · have hne : ¬ r' = r := fun e => hr (by rw [e])
    simp [Screen.cell, Screen.xorCell, hr, hne]

/-- Two screens with the same cells are the same screen. -/
theorem Screen.ext_cells {v w : Screen} (h : ∀ r c, v.cell r c = w.cell r c) : v = w := by
  apply Vector.ext
  intro i hi
  apply BitVec.eq_of_getLsbD_eq
  intro j hj
  exact h ⟨i, hi⟩ ⟨j, hj⟩

/-- One pixel of a draw, at any unreduced coordinates. -/
theorem drawPixel_cell (r c : Nat) (p : Bool) (d : Screen × Bool) (r' : Fin 32) (c' : Fin 64) :
    (drawPixel r c p d).1.cell r' c'
      = (d.1.cell r' c' ^^ (decide (r % 32 = r'.val ∧ c % 64 = c'.val) && p)) := by
  simp only [drawPixel, Screen.cell_xorCell]
  congr 2
  simp only [Fin.ext_iff, eq_comm]

theorem drawPixel_hit (r c : Nat) (p : Bool) (d : Screen × Bool) :
    (drawPixel r c p d).2 = (d.2 || (p && d.1.cell ⟨r % 32, Nat.mod_lt _ (by decide)⟩
      ⟨c % 64, Nat.mod_lt _ (by decide)⟩)) := rfl

/-- The first `n` pixels of a sprite byte. -/
def drawCols (x0 r : Nat) (b : Byte) (n : Nat) (d : Screen × Bool) : Screen × Bool :=
  (List.range n).foldl (fun d col => drawPixel r (x0 + col) (spriteBit b col) d) d

theorem drawRow_eq_drawCols (x0 r : Nat) (b : Byte) (d : Screen × Bool) :
    drawRow x0 r b d = drawCols x0 r b 8 d := rfl

theorem drawCols_succ (x0 r : Nat) (b : Byte) (n : Nat) (d : Screen × Bool) :
    drawCols x0 r b (n + 1) d
      = drawPixel r (x0 + n) (spriteBit b n) (drawCols x0 r b n d) := by
  simp [drawCols, List.range_succ]

/-- A set pixel among the first `n` of the sprite byte `b`, drawn at row `r` and column `x0`, falls on
the cell. -/
def ColHits (x0 r : Nat) (b : Byte) (n : Nat) (r' : Fin 32) (c' : Fin 64) : Prop :=
  ∃ col, col < n ∧ r % 32 = r'.val ∧ (x0 + col) % 64 = c'.val ∧ spriteBit b col = true

theorem colHits_succ (x0 r : Nat) (b : Byte) (n : Nat) (r' : Fin 32) (c' : Fin 64) :
    ColHits x0 r b (n + 1) r' c' ↔ ColHits x0 r b n r' c'
      ∨ (r % 32 = r'.val ∧ (x0 + n) % 64 = c'.val ∧ spriteBit b n = true) := by
  constructor
  · rintro ⟨col, hc, h⟩
    rcases Nat.lt_succ_iff_lt_or_eq.1 hc with hc | rfl
    · exact .inl ⟨col, hc, h⟩
    · exact .inr h
  · rintro (⟨col, hc, h⟩ | h)
    · exact ⟨col, by omega, h⟩
    · exact ⟨n, by omega, h⟩

/-- No two pixels of one sprite byte fall on the same cell: 8 columns are fewer than 64. -/
theorem colHits_disjoint {x0 r : Nat} {b : Byte} {n : Nat} {r' : Fin 32} {c' : Fin 64} (hn : n < 8)
    (h : (x0 + n) % 64 = c'.val) : ¬ ColHits x0 r b n r' c' := by
  rintro ⟨col, hc, -, h', -⟩; omega

open Classical in
/-- The first `n` pixels invert exactly the cells they fall on, and hit when one of those was set. -/
theorem drawCols_spec (x0 r : Nat) (b : Byte) (n : Nat) (hn : n ≤ 8) (d : Screen × Bool) :
    (∀ r' c', (drawCols x0 r b n d).1.cell r' c'
      = (d.1.cell r' c' ^^ decide (ColHits x0 r b n r' c')))
    ∧ ((drawCols x0 r b n d).2 = true
      ↔ d.2 = true ∨ ∃ r' c', ColHits x0 r b n r' c' ∧ d.1.cell r' c' = true) := by
  induction n with
  | zero => simp [drawCols, ColHits]
  | succ n ih =>
    obtain ⟨h1, h2⟩ := ih (by omega)
    rw [drawCols_succ]
    constructor
    · intro r' c'
      rw [drawPixel_cell, h1, Bool.xor_assoc]
      congr 1
      by_cases hA : r % 32 = r'.val ∧ (x0 + n) % 64 = c'.val ∧ spriteBit b n = true
      · rw [decide_eq_false (colHits_disjoint (by omega) hA.2.1),
          decide_eq_true ((colHits_succ ..).2 (.inr hA)), decide_eq_true ⟨hA.1, hA.2.1⟩, hA.2.2]
        rfl
      · have hf : (decide (r % 32 = r'.val ∧ (x0 + n) % 64 = c'.val) && spriteBit b n) = false := by
          rw [Bool.eq_false_iff]; intro h; simp at h; exact hA ⟨h.1.1, h.1.2, h.2⟩
        rw [hf, Bool.xor_false]
        congr 1
        exact propext ⟨fun h => (colHits_succ ..).2 (.inl h),
          fun h => ((colHits_succ ..).1 h).resolve_right hA⟩
    · rw [drawPixel_hit, Bool.or_eq_true, h2, Bool.and_eq_true, h1,
        decide_eq_false (colHits_disjoint (by omega) rfl), Bool.xor_false]
      constructor
      · rintro ((h | ⟨r', c', hc, h⟩) | ⟨hp, hcell⟩)
        · exact .inl h
        · exact .inr ⟨r', c', (colHits_succ ..).2 (.inl hc), h⟩
        · exact .inr ⟨_, _, (colHits_succ ..).2 (.inr ⟨rfl, rfl, hp⟩), hcell⟩
      · rintro (h | ⟨r', c', hc, hcell⟩)
        · exact .inl (.inl h)
        · rcases (colHits_succ ..).1 hc with hc | ⟨e1, e2, hp⟩
          · exact .inl (.inr ⟨r', c', hc, hcell⟩)
          · have er : (⟨r % 32, Nat.mod_lt _ (by decide)⟩ : Fin 32) = r' := Fin.ext e1
            have ec : (⟨(x0 + n) % 64, Nat.mod_lt _ (by decide)⟩ : Fin 64) = c' := Fin.ext e2
            exact .inr ⟨hp, by rw [er, ec]; exact hcell⟩

/-- A set pixel of the sprite `bs`, drawn with its top-left pixel at row `y0` and column `x0`, falls on
the cell. -/
def SpriteHits (x0 y0 : Nat) (bs : List Byte) (r : Fin 32) (c : Fin 64) : Prop :=
  ∃ row col b, bs[row]? = some b ∧ col < 8 ∧ (y0 + row) % 32 = r.val ∧ (x0 + col) % 64 = c.val
    ∧ spriteBit b col = true

theorem spriteHits_cons (x0 y0 : Nat) (b : Byte) (bs : List Byte) (r : Fin 32) (c : Fin 64) :
    SpriteHits x0 y0 (b :: bs) r c ↔ ColHits x0 y0 b 8 r c ∨ SpriteHits x0 (y0 + 1) bs r c := by
  constructor
  · rintro ⟨row, col, b', hb', h⟩
    cases row with
    | zero => simp at hb'; subst hb'; exact .inl ⟨col, h⟩
    | succ row =>
      refine .inr ⟨row, col, b', by simpa using hb', h.1, ?_, h.2.2⟩
      rw [← h.2.1]; congr 1; omega
  · rintro (⟨col, h⟩ | ⟨row, col, b', hb', h⟩)
    · exact ⟨0, col, b, rfl, h⟩
    · refine ⟨row + 1, col, b', by simpa using hb', h.1, ?_, h.2.2⟩
      rw [← h.2.1]; congr 1; omega

/-- No two rows of a sprite of at most 32 rows fall on the same cell. -/
theorem spriteHits_disjoint {x0 y0 : Nat} {b : Byte} {bs : List Byte} {r : Fin 32} {c : Fin 64}
    (hb : bs.length < 32) (h : ColHits x0 y0 b 8 r c) : ¬ SpriteHits x0 (y0 + 1) bs r c := by
  obtain ⟨col, -, e, -⟩ := h
  rintro ⟨row, col', b', hb', -, e', -⟩
  have : row < bs.length := (List.getElem?_eq_some_iff.1 hb').1
  omega

open Classical in
/-- A sprite inverts exactly the cells its set pixels fall on, and hits when one of those was set. -/
theorem drawRows_spec (x0 : Nat) (bs : List Byte) (y0 : Nat) (hb : bs.length ≤ 32)
    (d : Screen × Bool) :
    (∀ r c, (drawRows x0 y0 bs d).1.cell r c
      = (d.1.cell r c ^^ decide (SpriteHits x0 y0 bs r c)))
    ∧ ((drawRows x0 y0 bs d).2 = true
      ↔ d.2 = true ∨ ∃ r c, SpriteHits x0 y0 bs r c ∧ d.1.cell r c = true) := by
  induction bs generalizing y0 d with
  | nil => simp [drawRows, SpriteHits]
  | cons b bs ih =>
    simp only [List.length_cons] at hb
    obtain ⟨h1, h2⟩ := ih (y0 + 1) (by omega) (drawRow x0 y0 b d)
    obtain ⟨k1, k2⟩ := drawCols_spec x0 y0 b 8 (le_refl _) d
    rw [← drawRow_eq_drawCols] at k1 k2
    simp only [drawRows]
    constructor
    · intro r c
      rw [h1, k1, Bool.xor_assoc]
      congr 1
      by_cases hA : ColHits x0 y0 b 8 r c
      · rw [decide_eq_true hA, decide_eq_false (spriteHits_disjoint (by omega) hA),
          decide_eq_true ((spriteHits_cons ..).2 (.inl hA))]
        rfl
      · rw [decide_eq_false hA, Bool.false_xor]
        congr 1
        exact propext ⟨fun h => (spriteHits_cons ..).2 (.inr h),
          fun h => ((spriteHits_cons ..).1 h).resolve_left hA⟩
    · rw [h2, k2]
      have old : ∀ r c, SpriteHits x0 (y0 + 1) bs r c →
          (drawRow x0 y0 b d).1.cell r c = d.1.cell r c := fun r c h => by
        rw [k1, decide_eq_false (fun hA => spriteHits_disjoint (by omega) hA h), Bool.xor_false]
      constructor
      · rintro ((h | ⟨r, c, h, hc⟩) | ⟨r, c, h, hc⟩)
        · exact .inl h
        · exact .inr ⟨r, c, (spriteHits_cons ..).2 (.inl h), hc⟩
        · exact .inr ⟨r, c, (spriteHits_cons ..).2 (.inr h), by rw [← old r c h]; exact hc⟩
      · rintro (h | ⟨r, c, h, hc⟩)
        · exact .inl (.inl h)
        · rcases (spriteHits_cons ..).1 h with h | h
          · exact .inl (.inr ⟨r, c, h, hc⟩)
          · exact .inr ⟨r, c, h, by rw [old r c h]; exact hc⟩

/-- The sprite that a draw reads from memory at I falls on a cell exactly as `Painted` says. -/
theorem spriteHits_readBytes (s : State) (x0 y0 n : Nat) (r : Fin 32) (c : Fin 64) :
    SpriteHits x0 y0 (s.mem.readBytes (s.ea 0) n) r c ↔ Painted s x0 y0 n r c := by
  constructor
  · rintro ⟨row, col, b, hb, h1, h2, h3, h4⟩
    have hr : row < n := by
      have := (List.getElem?_eq_some_iff.1 hb).1
      rwa [Memory.readBytes_length] at this
    rw [Memory.readBytes_getElem? _ _ _ _ hr, Option.some.injEq] at hb
    subst hb
    exact ⟨row, col, hr, h1, h2, h3, h4⟩
  · rintro ⟨row, col, hr, h1, h2, h3, h4⟩
    exact ⟨row, col, _, Memory.readBytes_getElem? _ _ _ _ hr, h1, h2, h3, h4⟩

end Sys2Proof.Machine
end

