-- ==== Sys2Proof/Tests/Slice0.lean ====
section
/-! SUPPORT. Small tests of the model. The expected results are the spec's test vectors
(`spec/95_test_vectors.md`, named S<n> and T<n> below) or are read off the cited rule; words are
written out from the spec's encodings (R82, R85). The `witness` theorems show, for each statement
with hypotheses, states and operands that meet them, one for each clause, at the ends of its range. -/

namespace Sys2Proof.Tests

open Sys2Proof Sys2Proof.Machine
open Host (Outcome)

/-! ## Helpers -/

/-- The reset state with some registers set. -/
def withRegs (l : List (Reg × Byte)) : State := l.foldl (fun s p => s.setReg p.1 p.2) State.reset

/-- A state with PC elsewhere. -/
def atPc (s : State) (pc : Word) : State := { s with pc := pc }

/-- A state with I elsewhere. -/
def atI (s : State) (i : Word) : State := { s with i := i }

/-- A state with `k` return addresses on the stack, all 0x0206. -/
def withStack (s : State) (k : Fin 17) : State := { s with sp := k, stk := Vector.replicate 16 0x0206#16 }

/-- A state with some bytes stored from `a` on. -/
def withBytes (s : State) (a : Nat) (bs : List Byte) : State := { s with mem := s.mem.writeBytes a bs }

/-- What `f` reads of the state after one step at the opcode `w`; none if the step does not complete. -/
def after {α : Type} (s : State) (w : Nat) (f : State → α) : Option α :=
  (next? (step (s.withFetchWord 16 w))).map f

/-- The fault of one step at the opcode `w`. -/
def faultOf (s : State) (w : Nat) : Option Fault := fault? (step (s.withFetchWord 16 w))

/-- V1 and VF. -/
def v1f (t : State) : Byte × Byte := (t.reg 0x1#4, t.reg VF)

/-! ## Well-formedness -/

theorem test_nop_of_cls_word_refused : (Instr.nop 0x0000#16).wellFormed = false := by decide
theorem test_nop_of_8xy4_word_refused : (Instr.nop 0x8124#16).wellFormed = false := by decide
theorem test_nop_of_1nnn_word_refused : (Instr.nop 0x1204#16).wellFormed = false := by decide
theorem test_nop_of_skp_word_refused : (Instr.nop 0xE39E#16).wellFormed = false := by decide
theorem test_nop_of_Fx65_word_refused : (Instr.nop 0xF265#16).wellFormed = false := by decide
theorem test_nop_words_accepted :
    (Instr.nop 0x0001#16).wellFormed = true ∧ (Instr.nop 0x8018#16).wellFormed = true
    ∧ (Instr.nop 0xE3A2#16).wellFormed = true ∧ (Instr.nop 0xF000#16).wellFormed = true := by decide

/-! ## Decoding: one word of every row, written out from R85 -/

theorem test_decode_family_0 :
    decode 0b0000_0000_1110_0000#16 = .cls 0x0E#8 ∧ decode 0b0000_1111_1111_0000#16 = .cls 0xFF#8
    ∧ decode 0b0000_0000_1110_1110#16 = .ret 0x0E#8
    ∧ decode 0b0000_1010_1011_1110#16 = .ret 0xAB#8
    ∧ decode 0b0000_0000_0000_0001#16 = .nop 0x0001#16 := by decide

theorem test_decode_jumps_and_call :
    decode 0b0001_1010_1011_1100#16 = .jp 0xABC#12 ∧ decode 0b0010_1010_1011_1100#16 = .call 0xABC#12
    ∧ decode 0b1011_1010_1011_1100#16 = .jpV0 0xABC#12 := by decide

theorem test_decode_skips :
    decode 0b0011_1010_1011_1100#16 = .seImm 0xA#4 0xBC#8
    ∧ decode 0b0100_1010_1011_1100#16 = .sneImm 0xA#4 0xBC#8
    ∧ decode 0b0101_1010_1011_0000#16 = .seReg 0xA#4 0xB#4 0x0#4
    ∧ decode 0b1001_1010_1011_1100#16 = .sneReg 0xA#4 0xB#4 0xC#4 := by decide

theorem test_decode_immediates :
    decode 0b0110_1010_1011_1100#16 = .ldImm 0xA#4 0xBC#8
    ∧ decode 0b0111_1010_1011_1100#16 = .addImm 0xA#4 0xBC#8
    ∧ decode 0b1100_1010_1011_1100#16 = .rnd 0xA#4 0xBC#8
    ∧ decode 0b1010_1010_1011_1100#16 = .ldI 0xABC#12 := by decide

theorem test_decode_family_8 :
    decode 0b1000_0001_0010_0000#16 = .ldReg 0x1#4 0x2#4
    ∧ decode 0b1000_0001_0010_0001#16 = .orReg 0x1#4 0x2#4
    ∧ decode 0b1000_0001_0010_0010#16 = .andReg 0x1#4 0x2#4
    ∧ decode 0b1000_0001_0010_0011#16 = .xorReg 0x1#4 0x2#4
    ∧ decode 0b1000_0001_0010_0100#16 = .addReg 0x1#4 0x2#4
    ∧ decode 0b1000_0001_0010_0101#16 = .subReg 0x1#4 0x2#4
    ∧ decode 0b1000_0001_0010_0110#16 = .shr 0x1#4 0x2#4
    ∧ decode 0b1000_0001_0010_0111#16 = .subnReg 0x1#4 0x2#4
    ∧ decode 0b1000_0001_0010_1110#16 = .shl 0x1#4 0x2#4
    ∧ decode 0b1000_0001_0010_1111#16 = .nop 0x812F#16 := by decide

theorem test_decode_draw_and_keys :
    decode 0b1101_0001_0010_0101#16 = .drw 0x1#4 0x2#4 0x5#4
    ∧ decode 0b1110_0011_1001_1110#16 = .skp 0x3#4 0x9#4
    ∧ decode 0b1110_0011_1010_0001#16 = .sknp 0x3#4 0xA#4
    ∧ decode 0b1110_0011_1111_1111#16 = .nop 0xE3FF#16 := by decide

theorem test_decode_family_F :
    decode 0b1111_0011_0000_0111#16 = .ldVxDt 0x3#4 ∧ decode 0b1111_0011_0000_1010#16 = .ldVxK 0x3#4
    ∧ decode 0b1111_0011_0001_0101#16 = .ldDtVx 0x3#4
    ∧ decode 0b1111_0011_0001_1000#16 = .ldStVx 0x3#4
    ∧ decode 0b1111_0011_0001_1110#16 = .addI 0x3#4 ∧ decode 0b1111_0011_0010_1001#16 = .ldF 0x3#4
    ∧ decode 0b1111_0011_0011_0011#16 = .ldB 0x3#4 ∧ decode 0b1111_0011_0101_0101#16 = .dump 0x3#4
    ∧ decode 0b1111_0011_0110_0101#16 = .load 0x3#4
    ∧ decode 0b1111_0011_0110_0110#16 = .nop 0xF366#16 := by decide

/-- The first byte of an opcode is its high byte (R52); one byte is no instruction (R80). -/
theorem test_decode_bytes :
    (decodeBytes [0x60#8, 0x0A#8, 0x12#8]).toOption = some (.ldImm 0x0#4 0x0A#8, [0x12#8])
    ∧ (decodeBytes [0x60#8]).toOption = none ∧ (decodeBytes []).toOption = none
    ∧ decodeTableWord 16 0x600A = some (.ldImm 0x0#4 0x0A#8) := by decide

/-! ## The cycle (T1 to T11) -/

theorem test_s1_first_step :
    after State.reset 0x600A (fun t => (t.reg 0x0#4, t.pc)) = some (0x0A#8, 0x0202#16) := by decide

theorem test_t1_nop_ticks :
    after { State.reset with dt := 3#8 } 0x8018 (fun t => (t.pc, t.dt, t.st)) =
      some (0x0202#16, 2#8, 0#8) := by decide

theorem test_t2_pc_wraps :
    after (atPc State.reset 0x0FFE#16) 0x0001 (fun t => t.pc) = some 0x0000#16 := by decide

theorem test_t3_fetch_at_the_end : fault? (step (atPc State.reset 0x0FFF#16)) = some .memoryFault := by
  decide

/-- T175: with nothing loaded the step is `CLS` (0x0000). -/
theorem test_t175_reset_step : (next? (step State.reset)).map (fun t => t.pc) = some 0x0202#16 := by decide

/-! ## Control transfer (T20 to T39) -/

theorem test_t20_jp : after State.reset 0x1204 (fun t => t.pc) = some 0x0204#16 := by decide

theorem test_t23_call :
    after (atPc State.reset 0x0204#16) 0x220A (fun t => (t.stk[0], t.sp, t.pc)) =
      some (0x0206#16, 1, 0x020A#16) := by decide
theorem test_t24_t25_call_at_the_top :
    after (withStack State.reset 15) 0x2300 (fun t => (t.stk[15], t.sp)) = some (0x0202#16, 16)
    ∧ faultOf (withStack State.reset 16) 0x2300 = some .stackOverflow := by decide

theorem test_t5_ret_alias :
    after (withStack State.reset 1) 0x0ABE (fun t => (t.sp, t.pc)) = some (0, 0x0206#16) := by decide
theorem test_t27_ret_underflow : faultOf State.reset 0x00EE = some .stackUnderflow := by decide

theorem test_t28_t29_seImm :
    after (atPc State.reset 0x0208#16) 0x3100 (fun t => t.pc) = some 0x020C#16
    ∧ after (atPc (withRegs [(0x1#4, 4#8)]) 0x0208#16) 0x3100 (fun t => t.pc) = some 0x020A#16 := by
  decide
theorem test_t30_skip_wraps :
    after (atPc State.reset 0x0FFC#16) 0x3000 (fun t => t.pc) = some 0x0000#16 := by decide

theorem test_t31_t32_sneImm :
    after (withRegs [(0x2#4, 5#8)]) 0x4205 (fun t => t.pc) = some 0x0202#16
    ∧ after (withRegs [(0x2#4, 6#8)]) 0x4205 (fun t => t.pc) = some 0x0204#16 := by decide

theorem test_t6_seReg_alias :
    after (withRegs [(0x1#4, 7#8), (0x2#4, 7#8)]) 0x5127 (fun t => t.pc) = some 0x0204#16 := by decide

theorem test_t7_t36_sneReg :
    after (withRegs [(0x1#4, 7#8), (0x2#4, 8#8)]) 0x912F (fun t => t.pc) = some 0x0204#16
    ∧ after (withRegs [(0x1#4, 7#8), (0x2#4, 7#8)]) 0x9120 (fun t => t.pc) = some 0x0202#16 := by decide

theorem test_t38_jpV0_wraps :
    after (withRegs [(0x0#4, 2#8)]) 0xBFFF (fun t => t.pc) = some 0x0001#16 := by decide

/-! ## Loads and arithmetic (T50 to T78): V1 and VF -/

theorem test_t51_addImm_no_flag : after (withRegs [(0x1#4, 0xFF#8)]) 0x7102 v1f = some (0x01#8, 0#8) := by
  decide
theorem test_t53_ldReg : after (withRegs [(0x2#4, 0x3C#8)]) 0x8120 v1f = some (0x3C#8, 0#8) := by decide
theorem test_t54_or :
    after (withRegs [(0x1#4, 0xF0#8), (0x2#4, 0x0F#8), (VF, 1#8)]) 0x8121 v1f = some (0xFF#8, 1#8) := by
  decide
theorem test_t55_and :
    after (withRegs [(0x1#4, 0xF3#8), (0x2#4, 0x3F#8), (VF, 1#8)]) 0x8122 v1f = some (0x33#8, 1#8) := by
  decide
theorem test_t56_xor :
    after (withRegs [(0x1#4, 0xFF#8), (0x2#4, 0x0F#8), (VF, 1#8)]) 0x8123 v1f = some (0xF0#8, 1#8) := by
  decide

theorem test_t58_t59_add :
    after (withRegs [(0x1#4, 0xFF#8), (0x2#4, 0x01#8)]) 0x8124 v1f = some (0x00#8, 1#8)
    ∧ after (withRegs [(0x1#4, 0x80#8), (0x2#4, 0x7F#8)]) 0x8124 v1f = some (0xFF#8, 0#8) := by decide
theorem test_t61_t62_add_vf :
    after (withRegs [(VF, 0xF0#8), (0x2#4, 0x20#8)]) 0x8F24 (fun t => t.reg VF) = some 0x10#8
    ∧ after (withRegs [(0x1#4, 0xFF#8), (VF, 0x02#8)]) 0x81F4 v1f = some (0x01#8, 1#8) := by decide

theorem test_t64_t65_sub :
    after (withRegs [(0x1#4, 3#8), (0x2#4, 5#8)]) 0x8125 v1f = some (0xFE#8, 0#8)
    ∧ after (withRegs [(0x1#4, 7#8), (0x2#4, 7#8)]) 0x8125 v1f = some (0x00#8, 0#8) := by decide
theorem test_t63_t66_sub :
    after (withRegs [(0x1#4, 5#8), (0x2#4, 3#8)]) 0x8125 v1f = some (0x02#8, 1#8)
    ∧ after (withRegs [(VF, 9#8), (0x2#4, 4#8)]) 0x8F25 (fun t => t.reg VF) = some 0x05#8 := by decide

theorem test_t68_shr_ignores_vy :
    after (withRegs [(0x1#4, 0x80#8), (0x2#4, 0xFF#8)]) 0x8126 (fun t => (v1f t, t.reg 0x2#4)) =
      some ((0x40#8, 0#8), 0xFF#8) := by decide
theorem test_t67_t69_shr :
    after (withRegs [(0x1#4, 5#8)]) 0x8106 v1f = some (0x02#8, 1#8)
    ∧ after (withRegs [(VF, 6#8)]) 0x8F06 (fun t => t.reg VF) = some 0x03#8 := by decide

theorem test_t70_t71_subn :
    after (withRegs [(0x1#4, 3#8), (0x2#4, 5#8)]) 0x8127 v1f = some (0x02#8, 1#8)
    ∧ after (withRegs [(0x1#4, 5#8), (0x2#4, 3#8)]) 0x8127 v1f = some (0xFE#8, 0#8) := by decide
theorem test_t72_subn_equal :
    after (withRegs [(0x1#4, 5#8), (0x2#4, 5#8)]) 0x8127 v1f = some (0x00#8, 0#8) := by decide

theorem test_t73_t74_shl :
    after (withRegs [(0x1#4, 0x81#8)]) 0x810E v1f = some (0x02#8, 1#8)
    ∧ after (withRegs [(0x1#4, 0x7F#8)]) 0x810E v1f = some (0xFE#8, 0#8) := by decide
theorem test_t75_shl_vf : after (withRegs [(VF, 0xC1#8)]) 0x8F0E (fun t => t.reg VF) = some 0x82#8 := by
  decide

/-- T77: whatever the draw, masked with 0 it is 0, and the draw is used up. -/
theorem test_t77_rnd (s : State) :
    (next? (exec (.rnd 0x1#4 0x00#8) s)).map (fun t => (t.reg 0x1#4, t.rndIndex)) =
      some (0x00#8, s.rndIndex + 1) := by
  simp [exec, execRnd, next?, State.reg, State.setReg]

/-! ## Index and memory (T90 to T106) -/

theorem test_t90_ldI : after State.reset 0xA300 (fun t => t.i) = some 0x0300#16 := by decide

theorem test_t91_t92_addI :
    after (atI (withRegs [(0x2#4, 0x10#8)]) 0x0300#16) 0xF21E (fun t => (t.i, t.reg VF)) =
      some (0x0310#16, 0#8)
    ∧ after (atI (withRegs [(0x1#4, 1#8)]) 0x0FFF#16) 0xF11E (fun t => (t.i, t.reg VF)) =
      some (0x0000#16, 0#8) := by decide

theorem test_t93_t94_ldF :
    after (withRegs [(0x3#4, 0x0A#8)]) 0xF329 (fun t => t.i) = some 0x0082#16
    ∧ after (withRegs [(0x3#4, 0xFF#8)]) 0xF329 (fun t => t.i) = some 0x054B#16 := by decide

theorem test_t95_t96_ldB :
    after (atI (withRegs [(0x0#4, 157#8)]) 0x0300#16) 0xF033 (fun t => t.mem.readBytes 0x300 3) =
      some [1#8, 5#8, 7#8]
    ∧ after (atI (withRegs [(0x0#4, 255#8)]) 0x0300#16) 0xF033 (fun t => t.mem.readBytes 0x300 3) =
      some [2#8, 5#8, 5#8] := by decide
theorem test_t98_t99_ldB_at_the_end :
    after (atI (withRegs [(0x0#4, 123#8)]) 0x0FFD#16) 0xF033 (fun t => t.mem.readBytes 0xFFD 3) =
      some [1#8, 2#8, 3#8]
    ∧ faultOf (atI (withRegs [(0x0#4, 123#8)]) 0x0FFE#16) 0xF033 = some .memoryFault := by decide

theorem test_t100_dump :
    after (atI (withRegs [(0x0#4, 0x11#8), (0x1#4, 0x22#8), (0x2#4, 0x33#8), (0x3#4, 0x44#8)]) 0x0300#16)
      0xF255 (fun t => (t.mem.readBytes 0x300 4, t.i)) =
      some ([0x11#8, 0x22#8, 0x33#8, 0x00#8], 0x0300#16) := by decide
theorem test_t101_t102_dump_at_the_end :
    after (atI (withRegs [(0x0#4, 1#8), (VF, 0xEE#8)]) 0x0FF0#16) 0xFF55
      (fun t => (t.mem.read 0xFF0, t.mem.read 0xFFF)) = some (0x01#8, 0xEE#8)
    ∧ faultOf (atI State.reset 0x0FF1#16) 0xFF55 = some .memoryFault := by decide

theorem test_t103_load :
    after (atI (withBytes State.reset 0x300 [1#8, 5#8, 7#8, 9#8]) 0x0300#16) 0xF265
      (fun t => (t.reg 0x0#4, t.reg 0x1#4, t.reg 0x2#4, t.reg 0x3#4, t.i)) =
      some (1#8, 5#8, 7#8, 0#8, 0x0300#16) := by decide
theorem test_t104_load_at_the_end : faultOf (atI State.reset 0x0FF8#16) 0xF865 = some .memoryFault := by
  decide

/-! ## Display (T120 to T129) -/

/-- The cell at row `r`, column `c`. -/
def lit (t : State) (r : Fin 32) (c : Fin 64) : Bool := t.getVideoBuffer r c

/-- I at 0x300 with the sprite byte `b` there. -/
def withSprite (s : State) (b : Byte) : State := withBytes (atI s 0x0300#16) 0x300 [b]

theorem test_t120_cls :
    after { withRegs [(VF, 1#8)] with vid := Vector.replicate 32 5#64 } 0x00E0
      (fun t => (t.vid, t.reg VF)) = some (Vector.replicate 32 0#64, 1#8) := by decide

theorem test_t123_draw_wraps :
    after (withSprite (withRegs [(0x1#4, 126#8), (0x2#4, 33#8)]) 0xFF#8) 0xD121
      (fun t => ([lit t 1 62, lit t 1 63, lit t 1 0, lit t 1 5, lit t 1 6, lit t 1 61, lit t 0 62], t.reg VF)) =
      some ([true, true, true, true, false, false, false], 0#8) := by decide
theorem test_t129_draw_reads_before_vf :
    after (withSprite (withRegs [(VF, 5#8)]) 0x80#8) 0xDF11 (fun t => (lit t 0 5, lit t 0 0, t.reg VF)) =
      some (true, false, 0#8) := by decide
theorem test_t125_t126_draw_at_the_end :
    after (atI (withRegs [(VF, 1#8)]) 0x0FFF#16) 0xD120 (fun t => t.reg VF) = some 0#8
    ∧ faultOf (atI State.reset 0x0FFF#16) 0xD122 = some .memoryFault := by decide

/-! ## Keypad and timers (T140 to T153) -/

theorem test_t140_t141_skp :
    after ((atPc (withRegs [(0x3#4, 10#8)]) 0x0202#16).setKey 0xA#4 true) 0xE39E (fun t => t.pc) =
      some 0x0206#16
    ∧ after (atPc (withRegs [(0x3#4, 10#8)]) 0x0202#16) 0xE39E (fun t => t.pc) = some 0x0204#16 := by decide
theorem test_t142_t143_sknp :
    after (atPc (withRegs [(0x3#4, 10#8)]) 0x0202#16) 0xE3A1 (fun t => t.pc) = some 0x0206#16
    ∧ after ((atPc (withRegs [(0x3#4, 10#8)]) 0x0202#16).setKey 0xA#4 true) 0xE3A1 (fun t => t.pc) =
      some 0x0204#16 := by decide
theorem test_t144_key_index :
    faultOf (withRegs [(0x3#4, 0x10#8)]) 0xE39E = some .keyIndexOutOfRange
    ∧ faultOf (withRegs [(0x3#4, 0x10#8)]) 0xE3A1 = some .keyIndexOutOfRange := by decide

theorem test_t145_ldVxDt :
    after { State.reset with dt := 0x10#8 } 0xF107 (fun t => (t.reg 0x1#4, t.dt)) =
      some (0x10#8, 0x0F#8) := by decide
theorem test_t146_t147_ldDtVx :
    after (withRegs [(0x2#4, 5#8)]) 0xF215 (fun t => t.dt) = some 4#8
    ∧ after { State.reset with dt := 9#8 } 0xF215 (fun t => t.dt) = some 0#8 := by decide
theorem test_t148_t149_ldStVx :
    after (withRegs [(0x2#4, 1#8)]) 0xF218 (fun t => (t.st, t.toneOn)) = some (0#8, false)
    ∧ after (withRegs [(0x2#4, 3#8)]) 0xF218 (fun t => (t.st, t.toneOn)) = some (2#8, true) := by decide
theorem test_t150_t152_wait :
    after { State.reset with dt := 2#8 } 0xF30A (fun t => (t.pc, t.reg 0x3#4, t.dt)) =
      some (0x0200#16, 0#8, 1#8)
    ∧ after (atPc State.reset 0x0FFE#16) 0xF30A (fun t => t.pc) = some 0x0FFE#16 := by decide
theorem test_t151_least_key :
    after ((State.reset.setKey 0x9#4 true).setKey 0x7#4 true) 0xF30A (fun t => (t.reg 0x3#4, t.pc)) =
      some (7#8, 0x0202#16) := by decide

/-! ## Reset and load (T170 to T174) -/

theorem test_t170_reset :
    State.reset.pc = 0x0200#16 ∧ State.reset.mem.read 0x050 = 0xF0#8 ∧ State.reset.mem.read 0x09F = 0x80#8
    ∧ State.reset.mem.read 0x0A0 = 0x00#8 ∧ State.reset.mem.wf = true := by decide
theorem test_t174_load_one_byte :
    ((boot defaultParams (some [0xAA#8])).toOption.map fun t => (t.mem.read 0x200, t.mem.read 0x201)) =
      some (0xAA#8, 0x00#8) := by decide
theorem test_t173_load_nothing : (boot defaultParams (some [])).toOption = some State.reset := by decide

/-- Another `FONT` (R8, R31): its 80 bytes at 0x050 to 0x09F and nothing past them. -/
theorem test_reset_with_another_font :
    (State.resetWith { font := Vector.replicate 80 0xAB#8 }).mem.read 0x050 = 0xAB#8
    ∧ (State.resetWith { font := Vector.replicate 80 0xAB#8 }).mem.read 0x09F = 0xAB#8
    ∧ (State.resetWith { font := Vector.replicate 80 0xAB#8 }).mem.read 0x0A0 = 0x00#8
    ∧ (State.resetWith { font := Vector.replicate 80 0xAB#8 }).pc = 0x0200#16 := by decide

/-- Writing back what an unlisted address reads as removes the entry: equal memories are equal data. -/
theorem test_write_keeps_the_form :
    (Memory.write [(0x050, 1#8), (0x300, 2#8)] 0x050 0xF0#8) = [(0x300, 2#8)]
    ∧ (Memory.write [(0x050, 1#8), (0x300, 2#8)] 0x200 3#8) = [(0x050, 1#8), (0x200, 3#8), (0x300, 2#8)] := by
  decide

/-! ## Witnesses for the statements with hypotheses -/

theorem witness_DecodeInvertsEncode :
    (Instr.drw 0xF#4 0xF#4 0xF#4).wellFormed = true ∧ (Instr.nop 0xFFFF#16).wellFormed = true := by decide

theorem witness_StepRunsDecodedInstruction_next :
    ∃ (s : State) (i : Instr) (t : State), s.pc.toNat + 1 ≤ 0xFFF
      ∧ decode (joinBytes (s.mem.read s.pc.toNat) (s.mem.read (s.pc.toNat + 1))) = i
      ∧ exec i s.advance = .next t :=
  ⟨atPc State.reset 0x0FFE#16, _, _, by decide, rfl, rfl⟩

theorem witness_StepRunsDecodedInstruction_fault :
    ∃ (s : State) (i : Instr) (f : Fault), s.pc.toNat + 1 ≤ 0xFFF
      ∧ decode (joinBytes (s.mem.read s.pc.toNat) (s.mem.read (s.pc.toNat + 1))) = i
      ∧ exec i s.advance = .fault f :=
  ⟨State.reset.withFetchWord 16 0x00EE, _, .stackUnderflow, by decide, rfl, rfl⟩

theorem witness_FetchIsBigEndianOrFaults :
    (atPc State.reset 0x0FFF#16).pc.toNat + 1 > 0xFFF ∧ (atPc State.reset 0x0FFE#16).pc.toNat + 1 ≤ 0xFFF
    ∧ (atPc State.reset 0x0FFF#16).pc.toNat < 4096 := by decide

theorem witness_TimersTickOncePerStep_any :
    ∃ (s t : State) (w : Word), s.fetch = some w ∧ step s = .next t
      ∧ (∀ x, decode w ≠ .ldDtVx x) ∧ ∀ x, decode w ≠ .ldStVx x :=
  ⟨State.reset.withFetchWord 16 0x8018, _, 0x8018#16, by decide, rfl, by decide, by decide⟩

theorem witness_TimersTickOncePerStep_delay :
    ∃ (s t : State) (w : Word) (x : Reg), s.fetch = some w ∧ step s = .next t ∧ decode w = .ldDtVx x :=
  ⟨State.reset.withFetchWord 16 0xF215, _, 0xF215#16, 0x2#4, by decide, rfl, by decide⟩

theorem witness_TimersTickOncePerStep_sound :
    ∃ (s t : State) (w : Word) (x : Reg), s.fetch = some w ∧ step s = .next t ∧ decode w = .ldStVx x :=
  ⟨State.reset.withFetchWord 16 0xF218, _, 0xF218#16, 0x2#4, by decide, rfl, by decide⟩

theorem witness_NoOpOnlyAdvancesAndTicks :
    ∃ (s : State) (w : Word), s.fetch = some w ∧ noOpWord w = true :=
  ⟨(atPc State.reset 0x0FFE#16).withFetchWord 16 0x0001, 0x0001#16, by decide⟩

theorem witness_InstructionsChangeOnlyTheirOwn :
    ∃ (i : Instr) (s t : State), exec i s = .next t :=
  ⟨.ldB 0x0#4, atI State.reset 0x0FFD#16, _, rfl⟩

theorem witness_InstructionsFailExactlyAsListed_stack :
    errorIn (withStack State.reset 16) (.call 0x300#12) = some .stackOverflow
    ∧ errorIn (withStack State.reset 15) (.call 0x300#12) = none
    ∧ errorIn State.reset (.ret 0x0E#8) = some .stackUnderflow
    ∧ errorIn (withStack State.reset 1) (.ret 0x0E#8) = none := by decide

theorem witness_InstructionsFailExactlyAsListed_memory :
    errorIn (atI State.reset 0x0FFF#16) (.drw 0x1#4 0x2#4 0x2#4) = some .memoryFault
    ∧ errorIn (atI State.reset 0x0FFF#16) (.drw 0x1#4 0x2#4 0x1#4) = none
    ∧ errorIn (atI State.reset 0x0FFF#16) (.drw 0x1#4 0x2#4 0x0#4) = none
    ∧ errorIn (atI State.reset 0x0FFE#16) (.ldB 0x0#4) = some .memoryFault
    ∧ errorIn (atI State.reset 0x0FFD#16) (.ldB 0x0#4) = none
    ∧ errorIn (atI State.reset 0x0FF1#16) (.dump 0xF#4) = some .memoryFault
    ∧ errorIn (atI State.reset 0x0FF0#16) (.dump 0xF#4) = none
    ∧ errorIn (atI State.reset 0x0FF1#16) (.load 0xF#4) = some .memoryFault
    ∧ errorIn (atI State.reset 0x0FF0#16) (.load 0xF#4) = none := by decide

theorem witness_InstructionsFailExactlyAsListed_key :
    errorIn (withRegs [(0x3#4, 16#8)]) (.skp 0x3#4 0x9#4) = some .keyIndexOutOfRange
    ∧ errorIn (withRegs [(0x3#4, 15#8)]) (.skp 0x3#4 0x9#4) = none
    ∧ errorIn (withRegs [(0x3#4, 16#8)]) (.sknp 0x3#4 0xA#4) = some .keyIndexOutOfRange
    ∧ errorIn (withRegs [(0x3#4, 15#8)]) (.sknp 0x3#4 0xA#4) = none := by decide

theorem witness_StackOverflowOnlyFromCall :
    ∃ (s : State) (w : Word) (nnn : Addr), s.fetch = some w ∧ decode w = .call nnn ∧ s.sp.val = 16 :=
  ⟨(withStack State.reset 16).withFetchWord 16 0x2300, 0x2300#16, 0x300#12, by decide⟩

theorem witness_StackUnderflowOnlyFromRet :
    ∃ (s : State) (w : Word) (ign : BitVec 8), s.fetch = some w ∧ decode w = .ret ign ∧ s.sp.val = 0 :=
  ⟨State.reset.withFetchWord 16 0x00EE, 0x00EE#16, 0x0E#8, by decide⟩

theorem witness_MemoryFaultExactlyWhenOutside :
    (∃ (x y : Reg) (n : Nibble) (s : State), n.toNat ≥ 1 ∧ s.i.toNat + n.toNat - 1 > 0xFFF
      ∧ exec (.drw x y n) s = .fault .memoryFault)
    ∧ (∃ (x : Reg) (s : State), s.i.toNat + 2 > 0xFFF ∧ exec (.ldB x) s = .fault .memoryFault)
    ∧ (∃ (x : Reg) (s : State), s.i.toNat + x.toNat > 0xFFF ∧ exec (.dump x) s = .fault .memoryFault)
    ∧ (∃ (x : Reg) (s : State), s.i.toNat + x.toNat > 0xFFF ∧ exec (.load x) s = .fault .memoryFault)
    ∧ ∃ s : State, s.pc.toNat + 1 > 0xFFF ∧ step s = .fault .memoryFault :=
  ⟨⟨0x1#4, 0x2#4, 0x2#4, atI State.reset 0x0FFF#16, by decide, by decide, rfl⟩,
   ⟨0x0#4, atI State.reset 0x0FFE#16, by decide, rfl⟩,
   ⟨0xF#4, atI State.reset 0x0FF1#16, by decide, rfl⟩,
   ⟨0x8#4, atI State.reset 0x0FF8#16, by decide, rfl⟩,
   ⟨atPc State.reset 0x0FFF#16, by decide, rfl⟩⟩

theorem witness_MemoryWrittenOnlyByBcdAndDump :
    ∃ (i : Instr) (s t : State), exec i s = .next t ∧ (∀ x, i ≠ .ldB x) ∧ ∀ x, i ≠ .dump x :=
  ⟨.load 0xF#4, State.reset, _, rfl, by decide, by decide⟩

theorem witness_VideoWrittenOnlyByClsAndDraw :
    ∃ (i : Instr) (s t : State), exec i s = .next t ∧ (∀ g, i ≠ .cls g) ∧ ∀ x y n, i ≠ .drw x y n :=
  ⟨.load 0xF#4, State.reset, _, rfl, by simp, by simp⟩

theorem witness_StackTouchedOnlyByCallAndRet :
    ∃ (i : Instr) (s t : State), exec i s = .next t ∧ (∀ nnn, i ≠ .call nnn) ∧ ∀ g, i ≠ .ret g :=
  ⟨.jp 0x300#12, State.reset, _, rfl, by simp, by simp⟩

theorem witness_StackTouchedOnlyByCallAndRet_ret :
    ∃ (i : Instr) (s t : State), exec i s = .next t ∧ ∀ nnn, i ≠ .call nnn :=
  ⟨.ret 0x0E#8, withStack State.reset 1, _, rfl, by simp⟩

theorem witness_NoStepWritesTheKeypad : ∃ s t : State, step s = .next t :=
  ⟨(State.reset.setKey 0x7#4 true).withFetchWord 16 0xF30A, _, rfl⟩

theorem witness_KeypadReadByThreeInstructions :
    ∃ i : Instr, (∀ x g, i ≠ .skp x g) ∧ (∀ x g, i ≠ .sknp x g) ∧ ∀ x, i ≠ .ldVxK x :=
  ⟨.ldVxDt 0x1#4, by simp, by simp, by simp⟩

theorem witness_SoundTimerReadByNoInstruction : ∃ i : Instr, ∀ x, i ≠ .ldStVx x :=
  ⟨.ldVxDt 0x1#4, by simp⟩

theorem witness_RandomInputReadOnlyByRnd : ∃ i : Instr, ∀ x kk, i ≠ .rnd x kk :=
  ⟨.ldImm 0x1#4 0xFF#8, by simp⟩

theorem witness_StepKeepsTheInvariant : ∃ s t : State, s.Inv ∧ step s = .next t :=
  ⟨(atI (withStack State.reset 16) 0x0FF0#16).withFetchWord 16 0xFF55, _,
    ⟨by decide, by decide, by decide, by decide⟩, rfl⟩

theorem witness_HostMovesKeepTheInvariant :
    ∃ (s : State) (source : Option (List Byte)) (t : State) (ms : List Move) (u : State), s.Inv
      ∧ s.loadFrom source = .ok t ∧ s.moves ms = .next u :=
  ⟨State.reset, some [0x60#8, 0x0A#8], _, [.step, .setKey 0xF#4 true, .step], _,
    ⟨by decide, by decide, by decide, by decide⟩, rfl, rfl⟩

theorem witness_EqualReadsMeanEqualMemory :
    ∃ m m' : Memory, m.wf = true ∧ m'.wf = true ∧ ∀ a, m.read a = m'.read a :=
  ⟨[(0x050, 1#8), (0xFFF, 2#8)], _, by decide, by decide, fun _ => rfl⟩

theorem witness_ResetStateValues : font[0]? = some 0xF0#8 ∧ font[79]? = some 0x80#8 ∧ 0x04F < 0x050
    ∧ 0x09F < 0x0A0 := by decide

theorem witness_LoadCopiesTheProgram :
    (List.replicate 3585 (0xAA#8 : Byte)).length > 3584 ∧ (List.replicate 3584 (0xAA#8 : Byte)).length ≤ 3584
    ∧ State.reset.mem.wf = true ∧ (List.replicate 3584 (0xAA#8 : Byte))[3583]? = some 0xAA#8 :=
  ⟨by rw [List.length_replicate]; decide, by rw [List.length_replicate], rfl,
    by rw [List.getElem?_replicate]; decide⟩

theorem witness_PlacedWordIsFetched :
    (atPc State.reset 0x0FFE#16).mem.wf = true ∧ (atPc State.reset 0x0FFF#16).mem.wf = true
    ∧ 0xFFFF < 65536 := by decide

theorem witness_RetPopsTheReturnAddress :
    State.reset.sp.val = 0 ∧ (withStack State.reset 1).sp.val = (0 : Fin 16).val + 1
    ∧ (withStack State.reset 16).sp.val = (15 : Fin 16).val + 1
    ∧ 0x0ABE#16 &&& 0xF00F#16 = 0x000E#16 := by decide

theorem witness_CallPushesTheReturnAddress :
    (withStack State.reset 16).sp.val = 16 ∧ State.reset.sp.val = (0 : Fin 16).val
    ∧ (withStack State.reset 15).sp.val = (15 : Fin 16).val
    ∧ 0x2300#16 &&& 0xF000#16 = 0x2000#16 := by decide

theorem witness_JumpsSetThePc :
    0x1FFF#16 &&& 0xF000#16 = 0x1000#16 ∧ 0xBFFF#16 &&& 0xF000#16 = 0xB000#16 := by decide

theorem witness_ComparingSkips :
    0x3F01#16 &&& 0xF000#16 = 0x3000#16 ∧ 0x4205#16 &&& 0xF000#16 = 0x4000#16
    ∧ 0x5127#16 &&& 0xF000#16 = 0x5000#16 ∧ 0x912F#16 &&& 0xF000#16 = 0x9000#16 := by decide

theorem witness_CallThenRetReturns :
    ∃ (nnn : Addr) (s t : State), s.pc.toNat < 4096 ∧ exec (.call nnn) s = .next t :=
  ⟨0xFFF#12, atPc (withStack State.reset 15) 0x0FFF#16, _, by decide, rfl⟩

theorem witness_SelfJumpOnlyTicks : ∃ s : State, s.atSelfJump :=
  ⟨(atPc State.reset 0x0FFE#16).withFetchWord 16 0x1FFE, by decide, by decide, by decide⟩

theorem witness_LoadsAndAddImmediate :
    0x6F7B#16 &&& 0xF000#16 = 0x6000#16 ∧ 0x7102#16 &&& 0xF000#16 = 0x7000#16
    ∧ 0x8120#16 &&& 0xF00F#16 = 0x8000#16 := by decide

theorem witness_BitwiseOperations :
    0x8121#16 &&& 0xF00F#16 = 0x8001#16 ∧ 0x8122#16 &&& 0xF00F#16 = 0x8002#16
    ∧ 0x8123#16 &&& 0xF00F#16 = 0x8003#16 := by decide

theorem witness_FlagsOfArithmetic : (0x0#4 : Reg) ≠ VF ∧ (0xE#4 : Reg) ≠ VF := by decide

theorem witness_FlagsAreZeroOrOne :
    ∃ (i : Instr) (x y : Reg) (n : Nibble) (s t : State), x ≠ VF
      ∧ i ∈ [.addReg x y, .subReg x y, .shr x y, .subnReg x y, .shl x y, .drw x y n, .drw VF y n]
      ∧ exec i s = .next t :=
  ⟨.drw VF 0x2#4 0x1#4, 0x1#4, 0x2#4, 0x1#4, atI State.reset 0x0FFF#16, _, by decide, by decide, rfl⟩

theorem witness_AddToIndexWraps : 0xF21E#16 &&& 0xF0FF#16 = 0xF01E#16 := by decide

theorem witness_BcdStoresDigits :
    (atI State.reset 0x0FFE#16).i.toNat + 2 > 0xFFF ∧ (atI State.reset 0x0FFD#16).i.toNat + 2 ≤ 0xFFF
    ∧ (atI State.reset 0x0FFD#16).mem.wf = true ∧ 0xF033#16 &&& 0xF0FF#16 = 0xF033#16 := by decide

theorem witness_DumpStoresRegisters :
    (atI State.reset 0x0FF1#16).i.toNat + (0xF#4 : Reg).toNat > 0xFFF
    ∧ (atI State.reset 0x0FF0#16).i.toNat + (0xF#4 : Reg).toNat ≤ 0xFFF
    ∧ (atI State.reset 0x0FF0#16).mem.wf = true ∧ (0xF#4 : Reg).toNat ≤ (0xF#4 : Reg).toNat
    ∧ 0xFF55#16 &&& 0xF0FF#16 = 0xF055#16 := by decide

theorem witness_LoadFillsRegisters :
    (atI State.reset 0x0FF8#16).i.toNat + (0x8#4 : Reg).toNat > 0xFFF
    ∧ (atI State.reset 0x0FF7#16).i.toNat + (0x8#4 : Reg).toNat ≤ 0xFFF
    ∧ (0x8#4 : Reg).toNat ≤ (0x8#4 : Reg).toNat ∧ 0xF865#16 &&& 0xF0FF#16 = 0xF065#16 := by decide

theorem witness_DumpThenLoadRestores :
    ∃ (x k : Reg) (s t : State), s.mem.wf = true ∧ exec (.dump x) s = .next t ∧ k.toNat ≤ x.toNat :=
  ⟨0xF#4, 0xF#4, atI State.reset 0x0FF0#16, _, by decide, rfl, by decide⟩

/-- T106: the dump writes the two bytes at PC. -/
theorem witness_StoreIsSeenByNextFetch :
    ∃ (x k : Reg) (s t : State), s.mem.wf = true ∧ exec (.dump x) s = .next t ∧ k.toNat + 1 ≤ x.toNat
      ∧ s.pc.toNat = s.i.toNat + k.toNat :=
  ⟨0x1#4, 0x0#4, atI (atPc (withRegs [(0x0#4, 0x62#8), (0x1#4, 0x2A#8)]) 0x0202#16) 0x0202#16, _,
    by decide, rfl, by decide, by decide⟩

theorem witness_ClearZeroesTheScreen : 0x0FF0#16 &&& 0xF00F#16 = 0x0000#16 := by decide

/-- The two ends of the sprite read, a cell that is painted and set, one painted and clear (no
collision on a clear screen), and one that is not painted. -/
theorem witness_DrawInvertsPaintedCells :
    (atI State.reset 0x0FFF#16).i.toNat + (0x1#4 : Nibble).toNat - 1 ≤ 0xFFF ∧ (0x0#4 : Nibble).toNat = 0
    ∧ Painted (withSprite State.reset 0x80#8) 0 0 1 0 0
    ∧ ¬ Painted (withSprite State.reset 0x80#8) 0 0 1 1 0
    ∧ Screen.cell (Vector.replicate 32 1#64) 0 0 = true ∧ Screen.blank.cell 0 0 = false :=
  ⟨by decide, by decide, ⟨0, 0, by decide⟩, fun ⟨row, _, h, _, h', _⟩ => by
    have : row = 0 := by omega
    simp [this] at h', by decide, by decide⟩

theorem witness_DrawTwiceRestores :
    ∃ (x y : Reg) (n : Nibble) (s t : State), x ≠ VF ∧ y ≠ VF ∧ exec (.drw x y n) s = .next t
      ∧ (∀ r c, s.vid.cell r c = false) ∧ ∃ r c, t.vid.cell r c = true :=
  ⟨0x1#4, 0x2#4, 0x1#4, withSprite State.reset 0xFF#8, _, by decide, by decide, rfl,
    by simp [withSprite, withBytes, atI, State.reset, Screen.cell], 0, 7, by decide⟩

theorem witness_KeySkips :
    ((withRegs [(0x3#4, 15#8)]).reg 0x3#4).toNat = (0xF#4 : Nibble).toNat
    ∧ ((withRegs [(0x3#4, 16#8)]).reg 0x3#4).toNat > 15 := by decide

theorem witness_WaitForKey :
    (∃ (k : Nibble) (s : State), s.keyDown k = true ∧ ∀ j : Nibble, j.toNat < k.toNat → s.keyDown j = false)
    ∧ ∀ k, State.reset.keyDown k = false :=
  ⟨⟨0x7#4, (State.reset.setKey 0x9#4 true).setKey 0x7#4 true, by decide⟩, by decide⟩

theorem witness_SuspendedStepOnlyTicks : ∃ s : State, s.pc.toNat < 4096 ∧ s.suspended :=
  ⟨(atPc State.reset 0x0FFE#16).withFetchWord 16 0xF30A, by decide, ⟨0xF30A#16, 0x3#4, by decide⟩, by decide⟩

theorem witness_TimerReadAndSoundSet :
    (∃ (x : Reg) (s : State) (w : Word), s.fetch = some w ∧ decode w = .ldVxDt x)
    ∧ (∃ (x : Reg) (s : State) (w : Word), s.fetch = some w ∧ decode w = .ldStVx x)
    ∧ 0xF107#16 &&& 0xF0FF#16 = 0xF007#16 ∧ 0xF218#16 &&& 0xF0FF#16 = 0xF018#16 :=
  ⟨⟨0x1#4, State.reset.withFetchWord 16 0xF107, 0xF107#16, by decide⟩,
   ⟨0x2#4, State.reset.withFetchWord 16 0xF218, 0xF218#16, by decide⟩, by decide, by decide⟩

theorem witness_DelaySetRunsDown_set :
    (∃ (x : Reg) (s : State) (w : Word), s.fetch = some w ∧ decode w = .ldDtVx x)
    ∧ 0xF215#16 &&& 0xF0FF#16 = 0xF015#16 :=
  ⟨⟨0x2#4, State.reset.withFetchWord 16 0xF215, 0xF215#16, by decide⟩, by decide⟩

/-- A run of one step that sets no timer. -/
theorem witness_DelaySetRunsDown_run :
    ∃ (n : Nat) (s t : State), n = 1 ∧ s.dt = 9#8 ∧ Host.Core.run Sys2Proof.core n s = .next t
      ∧ ∀ m u w x, m < n → Host.Core.run Sys2Proof.core m s = .next u → u.fetch = some w →
        decode w ≠ .ldDtVx x := by
  refine ⟨1, ({ State.reset with dt := 9#8 } : State), _, rfl, rfl, rfl, ?_⟩
  intro m u w x hm hu hw
  obtain rfl : m = 0 := by omega
  cases hu
  cases hw
  exact fun h => by cases h

end Sys2Proof.Tests
end

section
/-! The fetch (`spec/40_cycle_dispatch.md` R101): what it answers on either side of the end of memory, and the
obligation about it. -/

namespace Sys2Proof.Machine

theorem State.fetch_eq_none_iff {s : State} : s.fetch = none ↔ s.pc.toNat + 1 > 0xFFF := by
  simp [State.fetch]

theorem State.fetch_eq_joinBytes {s : State} (h : s.pc.toNat + 1 ≤ 0xFFF) :
    s.fetch = some (joinBytes (s.mem.read s.pc.toNat) (s.mem.read (s.pc.toNat + 1))) :=
  if_neg (Nat.not_lt.mpr h)

theorem step_of_fetch_eq_none {s : State} (h : s.fetch = none) : step s = .fault .memoryFault := by
  rw [step, h]; rfl

/-- Within 12 bits only the last address has its successor outside memory. -/
theorem succ_above_memory_iff {pc : Word} (h : pc.toNat < 4096) :
    pc.toNat + 1 > 0xFFF ↔ pc = 0x0FFF#16 := by
  bv_omega

/-- Settles O9: each clause is one of the facts about the fetch above, and the value of the opcode is
that of `joinBytes`. -/
theorem fetchIsBigEndianOrFaults : Obligations.FetchIsBigEndianOrFaults := by
  intro s
  refine ⟨fun above => ?_, fun within => ?_, fun addr => ?_⟩
  · exact step_of_fetch_eq_none (State.fetch_eq_none_iff.mpr above)
  · exact ⟨_, State.fetch_eq_joinBytes within, joinBytes_toNat _ _⟩
  · exact State.fetch_eq_none_iff.trans (succ_above_memory_iff addr)

end Sys2Proof.Machine
end

section
/-! The errors (`spec/60_exceptions.md`): what an instruction raises is what `errorIn` lists, an error of a step is
the fetch's or its instruction's, and the obligations about the two stack errors (R221, R222). -/

namespace Sys2Proof.Machine

open Host (Outcome)

/-- The outcome is the error listed, and a next state when none is listed. -/
def RaisesExactly (listed : Option Fault) (o : Outcome State Fault Refusal) : Prop :=
  match listed with
  | some f => o = .fault f
  | none => ∃ t, o = .next t

theorem RaisesExactly.fault_iff {listed : Option Fault} {o : Outcome State Fault Refusal} {f : Fault}
    (h : RaisesExactly listed o) : o = .fault f ↔ listed = some f := by
  cases listed with
  | some g => rw [show o = .fault g from h]; simp
  | none => obtain ⟨t, rfl⟩ := h; simp

theorem raisesExactly_ite {c : Prop} [Decidable c] {f : Fault} {o : Outcome State Fault Refusal}
    (raises : c → o = .fault f) (completes : ¬c → ∃ t, o = .next t) :
    RaisesExactly (if c then some f else none) o := by
  by_cases h : c
  · rw [if_pos h]; exact raises h
  · rw [if_neg h]; exact completes h

/-! ## The operations that can raise an error -/

theorem checked_raisesExactly (s : State) (last : Nat) (t : State) :
    RaisesExactly (if s.i.toNat + last > 0xFFF then some .memoryFault else none) (s.checked last t) :=
  raisesExactly_ite (fun h => checked_fault.mpr ⟨h, rfl⟩)
    (fun h => ⟨t, checked_next.mpr ⟨Nat.not_lt.mp h, rfl⟩⟩)

theorem skipOnKey_raisesExactly (s : State) (x : Reg) (pressed : Bool) :
    RaisesExactly (if (s.reg x).toNat > 15 then some .keyIndexOutOfRange else none)
      (s.skipOnKey x pressed) :=
  raisesExactly_ite (fun h => if_pos h) (fun h => ⟨_, if_neg h⟩)

theorem execRet_raisesExactly (s : State) :
    RaisesExactly (if s.sp.val = 0 then some .stackUnderflow else none) (execRet s) :=
  raisesExactly_ite (fun h => dif_pos h) (fun h => ⟨_, dif_neg h⟩)

/-- SP never exceeds 16, so it is 16 exactly when it is not below 16, which is what `CALL` tests. -/
theorem execCall_raisesExactly (nnn : Addr) (s : State) :
    RaisesExactly (if s.sp.val = 16 then some .stackOverflow else none) (execCall nnn s) :=
  raisesExactly_ite (fun h => dif_neg (by omega)) (fun h => ⟨_, dif_pos (by omega)⟩)

/-- With n = 0 nothing is checked (D24); otherwise the last offset checked is n - 1. -/
theorem execDrw_raisesExactly (x y : Reg) (n : Nibble) (s : State) :
    RaisesExactly (if n.toNat ≥ 1 ∧ s.i.toNat + n.toNat - 1 > 0xFFF then some .memoryFault else none)
      (execDrw x y n s) := by
  refine raisesExactly_ite (fun h => ?_) (fun h => ?_)
  · exact (if_neg (by omega)).trans (checked_fault.mpr ⟨by omega, rfl⟩)
  · by_cases empty : n.toNat = 0
    · exact ⟨_, if_pos empty⟩
    · exact ⟨_, (if_neg empty).trans (checked_next.mpr ⟨by omega, rfl⟩)⟩

theorem execLdVxK_completes (x : Reg) (s : State) : ∃ t, execLdVxK x s = .next t := by
  unfold execLdVxK
  split <;> exact ⟨_, rfl⟩

/-! ## Instructions and steps -/

/-- An instruction raises what `errorIn` lists for it, and completes when nothing is listed. -/
theorem exec_raisesExactly (i : Instr) (s : State) : RaisesExactly (errorIn s i) (exec i s) := by
  cases i with
  | ret _ => exact execRet_raisesExactly s
  | call nnn => exact execCall_raisesExactly nnn s
  | drw x y n => exact execDrw_raisesExactly x y n s
  | skp x _ => exact skipOnKey_raisesExactly s x true
  | sknp x _ => exact skipOnKey_raisesExactly s x false
  | ldB _ => exact checked_raisesExactly s 2 _
  | dump x => exact checked_raisesExactly s x.toNat _
  | load x => exact checked_raisesExactly s x.toNat _
  | ldVxK x => exact execLdVxK_completes x s
  | _ => exact ⟨_, rfl⟩

theorem exec_fault_iff {i : Instr} {s : State} {f : Fault} :
    exec i s = .fault f ↔ errorIn s i = some f :=
  (exec_raisesExactly i s).fault_iff

theorem errorIn_eq_stackOverflow_iff {s : State} {i : Instr} :
    errorIn s i = some .stackOverflow ↔ (∃ nnn, i = .call nnn) ∧ s.sp.val = 16 := by
  cases i <;> simp [errorIn]

theorem errorIn_eq_stackUnderflow_iff {s : State} {i : Instr} :
    errorIn s i = some .stackUnderflow ↔ (∃ ign, i = .ret ign) ∧ s.sp.val = 0 := by
  cases i <;> simp [errorIn]

@[simp] theorem mapNext_eq_fault_iff {f : State → State} {o : Outcome State Fault Refusal} {e : Fault} :
    mapNext f o = .fault e ↔ o = .fault e := by
  cases o <;> simp

theorem step_of_fetch_eq_some {s : State} {w : Word} (h : s.fetch = some w) :
    step s = mapNext State.tick (exec (decode w) s.advance) := by
  rw [step, h]

/-- An error of a step is a fetch outside memory or the error of the instruction fetched (R226). -/
theorem step_fault_iff {s : State} {f : Fault} :
    step s = .fault f ↔ (s.fetch = none ∧ f = .memoryFault)
      ∨ ∃ w, s.fetch = some w ∧ exec (decode w) s.advance = .fault f := by
  cases h : s.fetch with
  | none => simp [step_of_fetch_eq_none h, eq_comm]
  | some w => simp [step_of_fetch_eq_some h]

/-- The advance leaves SP as it is, so the error listed for the step's instruction speaks of the SP
before the step. -/
@[simp] theorem advance_sp (s : State) : s.advance.sp = s.sp := rfl

/-- Settles O15: of all the errors listed only that of `CALL` is a stack overflow, and the fetch raises
none. -/
theorem stackOverflowOnlyFromCall : Obligations.StackOverflowOnlyFromCall := by
  have exec_iff (i : Instr) (s : State) :=
    exec_fault_iff.trans (errorIn_eq_stackOverflow_iff (s := s) (i := i))
  refine ⟨exec_iff, fun s => ?_⟩
  simp [step_fault_iff, exec_iff]

/-- Settles O16: of all the errors listed only that of `RET` is a stack underflow, and the fetch raises
none. -/
theorem stackUnderflowOnlyFromRet : Obligations.StackUnderflowOnlyFromRet := by
  have exec_iff (i : Instr) (s : State) :=
    exec_fault_iff.trans (errorIn_eq_stackUnderflow_iff (s := s) (i := i))
  refine ⟨exec_iff, fun s => ?_⟩
  simp [step_fault_iff, exec_iff]

end Sys2Proof.Machine
end

section
/-! Encoding (`spec/30_encoding.md`): the dispatcher of R84, the encoder of R82 and the opcode map of R85 say the
same. The two round trips come first; the opcode map follows from one lemma per row, the words of that row. -/

namespace Sys2Proof

/-! ## The no-op space and the dispatcher -/

/-- A word of the no-op space meets no key of its family's table (R86). -/
theorem decode_of_noOpWord {w : Word} (h : noOpWord w = true) : decode w = .nop w := by
  rcases (noOpWord_iff w).mp h with ⟨op, n0, nE⟩ | ⟨op, n8, nE⟩ | ⟨op, n1, nE⟩ | ⟨op, kk⟩
  · simp [decode, op, decodeFamily0]
  · simp only [decode, op, decodeFamily8]
    split
    case h_10 => rfl
    all_goals omega
  · simp [decode, op, decodeFamilyE]
  · simp only [List.mem_cons, List.not_mem_nil, or_false, not_or] at kk
    simp [decode, op, decodeFamilyF, kk]

/-! ## Decoding an encoding -/

/-- Settles O1: the encoder puts the key the dispatcher looks at where it looks for it, so each instruction
selects its own arm and finds its operands in their fields; a no-op's word is the case of
`decode_of_noOpWord`. -/
theorem decodeInvertsEncode : Obligations.DecodeInvertsEncode := by
  intro i wf
  cases i with
  | nop w => exact decode_of_noOpWord wf
  | _ => simp [encode, decode, decodeFamily0, decodeFamily8, decodeFamilyE, decodeFamilyF]

/-! ## Encoding what a word decodes to -/

theorem Format.z_eq_word {w : Word} {sub4 : Nibble} (op : (Field.op w).toNat = 0)
    (n : (Field.n w).toNat = sub4.toNat) : Format.z (Field.ignZ w) sub4 = w := by
  rw [← BitVec.eq_of_toNat_eq n, Format.z_fields w (BitVec.eq_of_toNat_eq op)]

theorem Format.a_eq_word {w : Word} {op : Nibble} (h : (Field.op w).toNat = op.toNat) :
    Format.a op (Field.nnn w) = w := by
  rw [← BitVec.eq_of_toNat_eq h, Format.a_fields]

theorem Format.xk_eq_word {w : Word} {op : Nibble} (h : (Field.op w).toNat = op.toNat) :
    Format.xk op (Field.x w) (Field.kk w) = w := by
  rw [← BitVec.eq_of_toNat_eq h, Format.xk_fields]

theorem Format.xb_eq_word {w : Word} {op : Nibble} {sub8 : Byte} (h : (Field.op w).toNat = op.toNat)
    (k : (Field.kk w).toNat = sub8.toNat) : Format.xk op (Field.x w) sub8 = w := by
  rw [← BitVec.eq_of_toNat_eq k, Format.xk_eq_word h]

theorem Format.xyn_eq_word {w : Word} {op : Nibble} (h : (Field.op w).toNat = op.toNat) :
    Format.xyn op (Field.x w) (Field.y w) (Field.n w) = w := by
  rw [← BitVec.eq_of_toNat_eq h, Format.xyn_fields]

theorem Format.xys_eq_word {w : Word} {op sub4 : Nibble} (h : (Field.op w).toNat = op.toNat)
    (n : (Field.n w).toNat = sub4.toNat) : Format.xyn op (Field.x w) (Field.y w) sub4 = w := by
  rw [← BitVec.eq_of_toNat_eq n, Format.xyn_eq_word h]

/-- The instruction is well formed and its opcode is the word. -/
def IsInstrOf (w : Word) (i : Instr) : Prop := i.wellFormed = true ∧ encode i = w

theorem isInstrOf_nop {w : Word} (h : noOpWord w = true) : IsInstrOf w (.nop w) := ⟨h, rfl⟩

theorem decodeFamily0_isInstrOf {w : Word} (op : (Field.op w).toNat = 0x0) :
    IsInstrOf w (decodeFamily0 w) := by
  unfold decodeFamily0
  split
  case h_3 n0 nE => exact isInstrOf_nop ((noOpWord_iff w).mpr (.inl ⟨op, n0, nE⟩))
  all_goals exact ⟨rfl, Format.z_eq_word op ‹_›⟩

theorem decodeFamily8_isInstrOf {w : Word} (op : (Field.op w).toNat = 0x8) :
    IsInstrOf w (decodeFamily8 w) := by
  unfold decodeFamily8
  split
  case h_10 =>
    simp only [imp_false] at *
    exact isInstrOf_nop ((noOpWord_iff w).mpr (.inr (.inl ⟨op, by omega, by omega⟩)))
  all_goals exact ⟨rfl, Format.xys_eq_word op ‹_›⟩

theorem decodeFamilyE_isInstrOf {w : Word} (op : (Field.op w).toNat = 0xE) :
    IsInstrOf w (decodeFamilyE w) := by
  unfold decodeFamilyE
  split
  case h_3 n1 nE => exact isInstrOf_nop ((noOpWord_iff w).mpr (.inr (.inr (.inl ⟨op, n1, nE⟩))))
  all_goals exact ⟨rfl, Format.xys_eq_word op ‹_›⟩

theorem decodeFamilyF_isInstrOf {w : Word} (op : (Field.op w).toNat = 0xF) :
    IsInstrOf w (decodeFamilyF w) := by
  unfold decodeFamilyF
  split
  case h_10 => exact isInstrOf_nop ((noOpWord_iff w).mpr (.inr (.inr (.inr ⟨op, by simp_all⟩))))
  all_goals exact ⟨rfl, Format.xb_eq_word op ‹_›⟩

/-- Every word decodes to an instruction of its own (R84, R86): family by family. -/
theorem decode_isInstrOf (w : Word) : IsInstrOf w (decode w) := by
  have op_lt := (Field.op w).isLt
  unfold decode
  split
  case h_1 op => exact decodeFamily0_isInstrOf op
  case h_9 op => exact decodeFamily8_isInstrOf op
  case h_15 op => exact decodeFamilyE_isInstrOf op
  case h_16 =>
    simp only [imp_false] at *
    exact decodeFamilyF_isInstrOf (by omega)
  case h_2 op | h_3 op | h_11 op | h_12 op => exact ⟨rfl, Format.a_eq_word op⟩
  case h_6 op | h_10 op | h_14 op => exact ⟨rfl, Format.xyn_eq_word op⟩
  all_goals exact ⟨rfl, Format.xk_eq_word ‹_›⟩

/-- Settles O2: every arm of the dispatcher answers an instruction of the word it was given. -/
theorem encodeInvertsDecode : Obligations.EncodeInvertsDecode :=
  decode_isInstrOf

/-- The no-op space is what decodes to a no-op, which then carries that word. -/
theorem decode_eq_nop_iff {w : Word} : decode w = .nop w ↔ noOpWord w = true := by
  refine ⟨fun h => ?_, decode_of_noOpWord⟩
  have wf := (decode_isInstrOf w).1
  rwa [h] at wf

/-- Settles O5: the no-op space is `noOpWord`, whose listing by numbers is the one by fields. -/
theorem noOpSpaceByFamily : Obligations.NoOpSpaceByFamily := by
  intro w
  have n_lt := (Field.n w).isLt
  rw [decode_eq_nop_iff, noOpWord_iff]
  simp only [← BitVec.toNat_inj, ne_eq, BitVec.toNat_ofNat, Nat.reducePow, Nat.reduceMod, List.mem_cons,
    List.not_mem_nil, or_false]
  omega

/-- Settles O6: each word is written out, so the dispatcher runs on it. -/
theorem writtenOutWordsDecode : Obligations.WrittenOutWordsDecode := by
  unfold Obligations.WrittenOutWordsDecode
  decide

/-! ## The rows of the opcode map (R85) -/

/-- What the mask of a row leaves of an opcode fixes the primary nibble. -/
theorem op_of_mask {w v : Word} (h : w &&& 0xF000#16 = v) : (Field.op w).toNat = v.toNat / 4096 := by
  have e := mask_op w
  rw [h] at e; omega

/-- The mask of the two-key rows fixes both nibbles. -/
theorem op_n_of_mask {w v : Word} (h : w &&& 0xF00F#16 = v) :
    (Field.op w).toNat = v.toNat / 4096 ∧ (Field.n w).toNat = v.toNat % 4096 := by
  have e := mask_op_n w
  have := (Field.n w).isLt
  rw [h] at e; omega

/-- The mask of the rows of family F fixes the primary nibble and the low byte. -/
theorem op_kk_of_mask {w v : Word} (h : w &&& 0xF0FF#16 = v) :
    (Field.op w).toNat = v.toNat / 4096 ∧ (Field.kk w).toNat = v.toNat % 4096 := by
  have e := mask_op_kk w
  have := (Field.kk w).isLt
  rw [h] at e; omega

theorem selectedBy_cls : SelectedBy 0xF00F#16 0x0000#16 (fun w => .cls (Field.ignZ w)) := by
  intro w h; obtain ⟨op, n⟩ := op_n_of_mask h; simp [decode, decodeFamily0, op, n]
theorem selectedBy_ret : SelectedBy 0xF00F#16 0x000E#16 (fun w => .ret (Field.ignZ w)) := by
  intro w h; obtain ⟨op, n⟩ := op_n_of_mask h; simp [decode, decodeFamily0, op, n]
theorem selectedBy_jp : SelectedBy 0xF000#16 0x1000#16 (fun w => .jp (Field.nnn w)) := by
  intro w h; simp [decode, op_of_mask h]
theorem selectedBy_call : SelectedBy 0xF000#16 0x2000#16 (fun w => .call (Field.nnn w)) := by
  intro w h; simp [decode, op_of_mask h]
theorem selectedBy_seImm : SelectedBy 0xF000#16 0x3000#16 (fun w => .seImm (Field.x w) (Field.kk w)) := by
  intro w h; simp [decode, op_of_mask h]
theorem selectedBy_sneImm : SelectedBy 0xF000#16 0x4000#16 (fun w => .sneImm (Field.x w) (Field.kk w)) := by
  intro w h; simp [decode, op_of_mask h]
theorem selectedBy_seReg : SelectedBy 0xF000#16 0x5000#16 (fun w => .seReg (Field.x w) (Field.y w) (Field.n w)) := by
  intro w h; simp [decode, op_of_mask h]
theorem selectedBy_ldImm : SelectedBy 0xF000#16 0x6000#16 (fun w => .ldImm (Field.x w) (Field.kk w)) := by
  intro w h; simp [decode, op_of_mask h]
theorem selectedBy_addImm : SelectedBy 0xF000#16 0x7000#16 (fun w => .addImm (Field.x w) (Field.kk w)) := by
  intro w h; simp [decode, op_of_mask h]
theorem selectedBy_ldReg : SelectedBy 0xF00F#16 0x8000#16 (fun w => .ldReg (Field.x w) (Field.y w)) := by
  intro w h; obtain ⟨op, n⟩ := op_n_of_mask h; simp [decode, decodeFamily8, op, n]
theorem selectedBy_orReg : SelectedBy 0xF00F#16 0x8001#16 (fun w => .orReg (Field.x w) (Field.y w)) := by
  intro w h; obtain ⟨op, n⟩ := op_n_of_mask h; simp [decode, decodeFamily8, op, n]
theorem selectedBy_andReg : SelectedBy 0xF00F#16 0x8002#16 (fun w => .andReg (Field.x w) (Field.y w)) := by
  intro w h; obtain ⟨op, n⟩ := op_n_of_mask h; simp [decode, decodeFamily8, op, n]
theorem selectedBy_xorReg : SelectedBy 0xF00F#16 0x8003#16 (fun w => .xorReg (Field.x w) (Field.y w)) := by
  intro w h; obtain ⟨op, n⟩ := op_n_of_mask h; simp [decode, decodeFamily8, op, n]
theorem selectedBy_addReg : SelectedBy 0xF00F#16 0x8004#16 (fun w => .addReg (Field.x w) (Field.y w)) := by
  intro w h; obtain ⟨op, n⟩ := op_n_of_mask h; simp [decode, decodeFamily8, op, n]
theorem selectedBy_subReg : SelectedBy 0xF00F#16 0x8005#16 (fun w => .subReg (Field.x w) (Field.y w)) := by
  intro w h; obtain ⟨op, n⟩ := op_n_of_mask h; simp [decode, decodeFamily8, op, n]
theorem selectedBy_shr : SelectedBy 0xF00F#16 0x8006#16 (fun w => .shr (Field.x w) (Field.y w)) := by
  intro w h; obtain ⟨op, n⟩ := op_n_of_mask h; simp [decode, decodeFamily8, op, n]
theorem selectedBy_subnReg : SelectedBy 0xF00F#16 0x8007#16 (fun w => .subnReg (Field.x w) (Field.y w)) := by
  intro w h; obtain ⟨op, n⟩ := op_n_of_mask h; simp [decode, decodeFamily8, op, n]
theorem selectedBy_shl : SelectedBy 0xF00F#16 0x800E#16 (fun w => .shl (Field.x w) (Field.y w)) := by
  intro w h; obtain ⟨op, n⟩ := op_n_of_mask h; simp [decode, decodeFamily8, op, n]
theorem selectedBy_sneReg : SelectedBy 0xF000#16 0x9000#16 (fun w => .sneReg (Field.x w) (Field.y w) (Field.n w)) := by
  intro w h; simp [decode, op_of_mask h]
theorem selectedBy_ldI : SelectedBy 0xF000#16 0xA000#16 (fun w => .ldI (Field.nnn w)) := by
  intro w h; simp [decode, op_of_mask h]
theorem selectedBy_jpV0 : SelectedBy 0xF000#16 0xB000#16 (fun w => .jpV0 (Field.nnn w)) := by
  intro w h; simp [decode, op_of_mask h]
theorem selectedBy_rnd : SelectedBy 0xF000#16 0xC000#16 (fun w => .rnd (Field.x w) (Field.kk w)) := by
  intro w h; simp [decode, op_of_mask h]
theorem selectedBy_drw : SelectedBy 0xF000#16 0xD000#16 (fun w => .drw (Field.x w) (Field.y w) (Field.n w)) := by
  intro w h; simp [decode, op_of_mask h]
theorem selectedBy_skp : SelectedBy 0xF00F#16 0xE00E#16 (fun w => .skp (Field.x w) (Field.y w)) := by
  intro w h; obtain ⟨op, n⟩ := op_n_of_mask h; simp [decode, decodeFamilyE, op, n]
theorem selectedBy_sknp : SelectedBy 0xF00F#16 0xE001#16 (fun w => .sknp (Field.x w) (Field.y w)) := by
  intro w h; obtain ⟨op, n⟩ := op_n_of_mask h; simp [decode, decodeFamilyE, op, n]
theorem selectedBy_ldVxDt : SelectedBy 0xF0FF#16 0xF007#16 (fun w => .ldVxDt (Field.x w)) := by
  intro w h; obtain ⟨op, kk⟩ := op_kk_of_mask h; simp [decode, decodeFamilyF, op, kk]
theorem selectedBy_ldVxK : SelectedBy 0xF0FF#16 0xF00A#16 (fun w => .ldVxK (Field.x w)) := by
  intro w h; obtain ⟨op, kk⟩ := op_kk_of_mask h; simp [decode, decodeFamilyF, op, kk]
theorem selectedBy_ldDtVx : SelectedBy 0xF0FF#16 0xF015#16 (fun w => .ldDtVx (Field.x w)) := by
  intro w h; obtain ⟨op, kk⟩ := op_kk_of_mask h; simp [decode, decodeFamilyF, op, kk]
theorem selectedBy_ldStVx : SelectedBy 0xF0FF#16 0xF018#16 (fun w => .ldStVx (Field.x w)) := by
  intro w h; obtain ⟨op, kk⟩ := op_kk_of_mask h; simp [decode, decodeFamilyF, op, kk]
theorem selectedBy_addI : SelectedBy 0xF0FF#16 0xF01E#16 (fun w => .addI (Field.x w)) := by
  intro w h; obtain ⟨op, kk⟩ := op_kk_of_mask h; simp [decode, decodeFamilyF, op, kk]
theorem selectedBy_ldF : SelectedBy 0xF0FF#16 0xF029#16 (fun w => .ldF (Field.x w)) := by
  intro w h; obtain ⟨op, kk⟩ := op_kk_of_mask h; simp [decode, decodeFamilyF, op, kk]
theorem selectedBy_ldB : SelectedBy 0xF0FF#16 0xF033#16 (fun w => .ldB (Field.x w)) := by
  intro w h; obtain ⟨op, kk⟩ := op_kk_of_mask h; simp [decode, decodeFamilyF, op, kk]
theorem selectedBy_dump : SelectedBy 0xF0FF#16 0xF055#16 (fun w => .dump (Field.x w)) := by
  intro w h; obtain ⟨op, kk⟩ := op_kk_of_mask h; simp [decode, decodeFamilyF, op, kk]
theorem selectedBy_load : SelectedBy 0xF0FF#16 0xF065#16 (fun w => .load (Field.x w)) := by
  intro w h; obtain ⟨op, kk⟩ := op_kk_of_mask h; simp [decode, decodeFamilyF, op, kk]

/-- Every word that selects the row decodes to an instruction of that row. -/
def RowAgrees (r : Row) : Prop := ∀ w, r.selects w = true → (decode w).row = some r

theorem SelectedBy.row {mask value : Word} {p : Word → Instr} (selected : SelectedBy mask value p)
    (stands : ∀ w, (p w).row = some ⟨mask, value⟩ := by intro; rfl) : RowAgrees ⟨mask, value⟩ := by
  intro w h
  rw [selected w (beq_iff_eq.mp h), stands]

theorem opcodeMap_rowAgrees : ∀ r ∈ opcodeMap, RowAgrees r := by
  simp only [opcodeMap, opcodeRowsLow, opcodeRows8, opcodeRowsHigh, List.cons_append, List.nil_append,
    List.forall_mem_cons]
  exact ⟨selectedBy_cls.row, selectedBy_ret.row, selectedBy_jp.row,
    selectedBy_call.row, selectedBy_seImm.row, selectedBy_sneImm.row,
    selectedBy_seReg.row, selectedBy_ldImm.row, selectedBy_addImm.row,
    selectedBy_ldReg.row, selectedBy_orReg.row, selectedBy_andReg.row,
    selectedBy_xorReg.row, selectedBy_addReg.row, selectedBy_subReg.row,
    selectedBy_shr.row, selectedBy_subnReg.row, selectedBy_shl.row,
    selectedBy_sneReg.row, selectedBy_ldI.row, selectedBy_jpV0.row,
    selectedBy_rnd.row, selectedBy_drw.row, selectedBy_skp.row,
    selectedBy_sknp.row, selectedBy_ldVxDt.row, selectedBy_ldVxK.row,
    selectedBy_ldDtVx.row, selectedBy_ldStVx.row, selectedBy_addI.row,
    selectedBy_ldF.row, selectedBy_ldB.row, selectedBy_dump.row,
    selectedBy_load.row, List.forall_mem_nil _⟩

/-- The row of an instruction is one of the 34. -/
theorem row_mem_opcodeMap {i : Instr} {r : Row} (h : i.row = some r) : r ∈ opcodeMap := by
  cases i with
  | nop w => cases h
  | _ => cases h; decide

/-- Every instruction's encoding has the fixed bits of its row. -/
theorem fixedBits : (i : Instr) → Laws.FixedBits.Statement i
  | .cls g => Laws.FixedBits.cls g
  | .ret g => Laws.FixedBits.ret g
  | .jp nnn => Laws.FixedBits.jp nnn
  | .call nnn => Laws.FixedBits.call nnn
  | .seImm x kk => Laws.FixedBits.seImm x kk
  | .sneImm x kk => Laws.FixedBits.sneImm x kk
  | .seReg x y n => Laws.FixedBits.seReg x y n
  | .ldImm x kk => Laws.FixedBits.ldImm x kk
  | .addImm x kk => Laws.FixedBits.addImm x kk
  | .ldReg x y => Laws.FixedBits.ldReg x y
  | .orReg x y => Laws.FixedBits.orReg x y
  | .andReg x y => Laws.FixedBits.andReg x y
  | .xorReg x y => Laws.FixedBits.xorReg x y
  | .addReg x y => Laws.FixedBits.addReg x y
  | .subReg x y => Laws.FixedBits.subReg x y
  | .shr x y => Laws.FixedBits.shr x y
  | .subnReg x y => Laws.FixedBits.subnReg x y
  | .shl x y => Laws.FixedBits.shl x y
  | .sneReg x y n => Laws.FixedBits.sneReg x y n
  | .ldI nnn => Laws.FixedBits.ldI nnn
  | .jpV0 nnn => Laws.FixedBits.jpV0 nnn
  | .rnd x kk => Laws.FixedBits.rnd x kk
  | .drw x y n => Laws.FixedBits.drw x y n
  | .skp x y => Laws.FixedBits.skp x y
  | .sknp x y => Laws.FixedBits.sknp x y
  | .ldVxDt x => Laws.FixedBits.ldVxDt x
  | .ldVxK x => Laws.FixedBits.ldVxK x
  | .ldDtVx x => Laws.FixedBits.ldDtVx x
  | .ldStVx x => Laws.FixedBits.ldStVx x
  | .addI x => Laws.FixedBits.addI x
  | .ldF x => Laws.FixedBits.ldF x
  | .ldB x => Laws.FixedBits.ldB x
  | .dump x => Laws.FixedBits.dump x
  | .load x => Laws.FixedBits.load x
  | .nop w => Laws.FixedBits.nop w

/-- A row the word selects is the row of its instruction, and conversely. -/
theorem row_decode_iff {w : Word} {r : Row} :
    (decode w).row = some r ↔ r ∈ opcodeMap ∧ r.selects w = true := by
  constructor
  · intro h
    have selects := fixedBits (decode w) r h
    rw [(decode_isInstrOf w).2] at selects
    exact ⟨row_mem_opcodeMap h, selects⟩
  · rintro ⟨listed, selects⟩
    exact opcodeMap_rowAgrees r listed w selects

/-- Settles O3: a row found is the row of the instruction; when none is found no row of the map is
selected, so the instruction stands in none. -/
theorem dispatcherFollowsOpcodeMap : Obligations.DispatcherFollowsOpcodeMap := by
  intro w
  cases found : opcodeMap.find? (fun r => r.selects w) with
  | some r =>
    exact row_decode_iff.mpr
      ⟨List.mem_of_find?_eq_some found, List.find?_some (p := fun r : Row => r.selects w) found⟩
  | none =>
    refine Option.eq_none_iff_forall_ne_some.mpr fun r stands => ?_
    obtain ⟨listed, selects⟩ := row_decode_iff.mp stands
    exact List.find?_eq_none.mp found r listed selects

/-- A list without repetition whose members are all one value has at most one. -/
theorem length_le_one_of_nodup {l : List Row} {o : Option Row} (distinct : l.Nodup)
    (same : ∀ r ∈ l, o = some r) : l.length ≤ 1 := by
  match l with
  | [] | [_] => simp
  | a :: b :: rest =>
    have e : some a = some b := (same a (by simp)).symm.trans (same b (by simp))
    cases e
    simp at distinct

/-- Settles O4: all rows a word selects are the one row of its instruction, and no row stands twice in the
map. -/
theorem opcodeMapRowsDisjoint : Obligations.OpcodeMapRowsDisjoint := by
  intro w
  have distinct : opcodeMap.Nodup := by decide
  exact length_le_one_of_nodup (distinct.filter _)
    (fun r h => row_decode_iff.mpr (List.mem_filter.mp h))

end Sys2Proof
end

section
/-! The execute phase of every instruction (R104): what the instructions that can fail answer, then the frame of
all of them, and the obligations that follow from the frame and from the errors listed. -/

namespace Sys2Proof.Machine

open Host (Outcome)

/-! ## What the instructions with two outcomes answer -/

/-- The state after `RET` with `k + 1` return addresses held (R121). -/
def State.popped (s : State) (k : Fin 16) : State :=
  { s with sp := k.castSucc, pc := wrap s.stk[k.val].toNat }

/-- The state after `CALL nnn` with `k` return addresses held (R123). -/
def State.pushed (s : State) (k : Fin 16) (nnn : Addr) : State :=
  { s with stk := s.stk.set k.val s.pc, sp := k.succ, pc := zextAddr nnn }

/-- The state after `DRW Vx, Vy, n` (R191). -/
def State.afterDraw (s : State) (x y : Reg) (n : Nibble) : State :=
  ({ s with vid := (s.drawn x y n).1 } : State).setReg VF (flagByte (s.drawn x y n).2)

theorem execRet_of_sp {s : State} {k : Fin 16} (h : s.sp.val = k.val + 1) :
    execRet s = .next (s.popped k) := by
  have top : s.sp.val - 1 = k.val := by omega
  rw [execRet, dif_neg (by omega)]
  simp only [top]
  rfl

theorem execRet_next {s t : State} (h : execRet s = .next t) :
    ∃ k : Fin 16, s.sp.val = k.val + 1 ∧ t = s.popped k := by
  by_cases empty : s.sp.val = 0
  · rw [execRet, dif_pos empty] at h; cases h
  · have e : s.sp.val = (⟨s.sp.val - 1, by omega⟩ : Fin 16).val + 1 := by simp; omega
    rw [execRet_of_sp e] at h
    cases h
    exact ⟨_, e, rfl⟩

theorem execCall_of_sp {s : State} {k : Fin 16} (nnn : Addr) (h : s.sp.val = k.val) :
    execCall nnn s = .next (s.pushed k nnn) := by
  rw [execCall, dif_pos (by omega)]
  simp only [h]
  rfl

theorem execCall_next {s t : State} {nnn : Addr} (h : execCall nnn s = .next t) :
    ∃ k : Fin 16, s.sp.val = k.val ∧ t = s.pushed k nnn := by
  by_cases room : s.sp.val < 16
  · rw [execCall_of_sp (k := ⟨s.sp.val, room⟩) nnn rfl] at h
    cases h
    exact ⟨⟨_, room⟩, rfl, rfl⟩
  · rw [execCall, dif_neg room] at h; cases h

theorem execDrw_next {s t : State} {x y : Reg} {n : Nibble} :
    execDrw x y n s = .next t
      ↔ (n.toNat = 0 ∨ s.i.toNat + n.toNat - 1 ≤ 0xFFF) ∧ t = s.afterDraw x y n := by
  by_cases empty : n.toNat = 0
  · simp [execDrw, State.afterDraw, empty, eq_comm]
  · have checks : execDrw x y n s = s.checked (n.toNat - 1) (s.afterDraw x y n) := if_neg empty
    rw [checks, checked_next, Nat.add_sub_assoc (by omega)]
    simp [empty]

theorem skipOnKey_next {s t : State} {x : Reg} {pressed : Bool} :
    s.skipOnKey x pressed = .next t
      ↔ (s.reg x).toNat ≤ 15 ∧ t = s.skipIf (s.keyDown ((s.reg x).setWidth 4) == pressed) := by
  by_cases above : (s.reg x).toNat > 15
  · simp [State.skipOnKey, above, raise]
  · simp [State.skipOnKey, above, Nat.not_lt.mp above, eq_comm]

theorem execLdVxK_next {s t : State} {x : Reg} (h : execLdVxK x s = .next t) :
    (∃ k, s.firstKey = some k ∧ t = s.setReg x (k.setWidth 8)) ∨ s.firstKey = none ∧ t = s.rollBack := by
  unfold execLdVxK at h
  split at h
  case h_1 k found => cases h; exact .inl ⟨k, found, rfl⟩
  case h_2 found => cases h; exact .inr ⟨found, rfl⟩

/-! ## Frames -/

/-- Nothing is stored under `c`, and all it names is named in `d`. -/
structure Changes.Within (c d : Changes) : Prop where
  regs : c.regs ⊆ d.regs
  i : d.i = false → c.i = false
  pc : d.pc = false → c.pc = false
  stk : d.stk = false → c.stk = false
  sp : d.sp = false → c.sp = false
  dt : d.dt = false → c.dt = false
  st : d.st = false → c.st = false
  vid : d.vid = false → c.vid = false
  storeLen : c.storeLen = 0
  rndIndex : d.rndIndex = false → c.rndIndex = false

theorem ChangesOnly.mono {c d : Changes} {s t : State} (within : c.Within d) (h : ChangesOnly c s t) :
    ChangesOnly d s t where
  regs r hr := h.regs r fun hc => hr (within.regs hc)
  i hd := h.i (within.i hd)
  pc hd := h.pc (within.pc hd)
  stk hd := h.stk (within.stk hd)
  sp hd := h.sp (within.sp hd)
  dt hd := h.dt (within.dt hd)
  st hd := h.st (within.st hd)
  vid hd := h.vid (within.vid hd)
  key := h.key
  mem a _ := h.mem a (by rw [within.storeLen]; omega)
  rndIndex hd := h.rndIndex (within.rndIndex hd)

theorem ChangesOnly.trans {c : Changes} {s t u : State} (h : ChangesOnly c s t) (h' : ChangesOnly c t u) :
    ChangesOnly c s u where
  regs r hr := (h'.regs r hr).trans (h.regs r hr)
  i hc := (h'.i hc).trans (h.i hc)
  pc hc := (h'.pc hc).trans (h.pc hc)
  stk hc := (h'.stk hc).trans (h.stk hc)
  sp hc := (h'.sp hc).trans (h.sp hc)
  dt hc := (h'.dt hc).trans (h.dt hc)
  st hc := (h'.st hc).trans (h.st hc)
  vid hc := (h'.vid hc).trans (h.vid hc)
  key := h'.key.trans h.key
  mem a ha := (h'.mem a ha).trans (h.mem a ha)
  rndIndex hc := (h'.rndIndex hc).trans (h.rndIndex hc)

theorem popped_changesOnly (s : State) (k : Fin 16) :
    ChangesOnly { pc := true, sp := true } s (s.popped k) where
  regs _ _ := rfl
  i _ := rfl
  pc h := by cases h
  stk _ := rfl
  sp h := by cases h
  dt _ := rfl
  st _ := rfl
  vid _ := rfl
  key := rfl
  mem _ _ := rfl
  rndIndex _ := rfl

theorem pushed_changesOnly (s : State) (k : Fin 16) (nnn : Addr) :
    ChangesOnly { pc := true, sp := true, stk := true } s (s.pushed k nnn) where
  regs _ _ := rfl
  i _ := rfl
  pc h := by cases h
  stk h := by cases h
  sp h := by cases h
  dt _ := rfl
  st _ := rfl
  vid _ := rfl
  key := rfl
  mem _ _ := rfl
  rndIndex _ := rfl

theorem setRegDraw_changesOnly (s : State) (x : Reg) (b : Byte) (k : Nat) :
    ChangesOnly { regs := [x], rndIndex := true } s { s.setReg x b with rndIndex := k } where
  regs r hr := reg_setReg_ne s x r b (by simpa using hr)
  i _ := rfl
  pc _ := rfl
  stk _ := rfl
  sp _ := rfl
  dt _ := rfl
  st _ := rfl
  vid _ := rfl
  key := rfl
  mem _ _ := rfl
  rndIndex h := by cases h

theorem dumped_changesOnly (s : State) (x : Reg) :
    ChangesOnly { storeAt := s.ea 0, storeLen := x.toNat + 1 } s
      { s with mem := s.mem.writeBytes (s.ea 0) (s.regBlock x) } := by
  have h := storeBytes_changesOnly s (s.ea 0) (s.regBlock x)
  rwa [regBlock_length] at h

theorem execLdVxK_changesOnly {s t : State} {x : Reg} (h : execLdVxK x s = .next t) :
    ChangesOnly { regs := [x], pc := true } s t := by
  rcases execLdVxK_next h with ⟨k, -, rfl⟩ | ⟨-, rfl⟩
  · exact (setReg_changesOnly s x _).mono (by constructor <;> simp)
  · exact (rollBack_changesOnly s).mono (by constructor <;> simp)

/-- The frame of every instruction is that of the operation it is made of. -/
theorem exec_changesOnly {i : Instr} {s t : State} (h : exec i s = .next t) :
    ChangesOnly (mayChange s i) s t := by
  cases i with
  | cls _ => cases h; exact setVid_changesOnly s _
  | ret _ => obtain ⟨k, -, rfl⟩ := execRet_next h; exact popped_changesOnly s k
  | call nnn => obtain ⟨k, -, rfl⟩ := execCall_next h; exact pushed_changesOnly s k nnn
  | jp _ | jpV0 _ => cases h; exact setPc_changesOnly s _
  | seImm _ _ | sneImm _ _ | seReg _ _ _ | sneReg _ _ _ => cases h; exact skipIf_changesOnly s _
  | skp _ _ | sknp _ _ => obtain ⟨-, rfl⟩ := skipOnKey_next.mp h; exact skipIf_changesOnly s _
  | ldImm x _ | addImm x _ | ldReg x _ | orReg x _ | andReg x _ | xorReg x _ | ldVxDt x =>
    cases h; exact setReg_changesOnly s x _
  | addReg x _ | subReg x _ | shr x _ | subnReg x _ | shl x _ =>
    cases h; exact setFlagThenReg_changesOnly s x _ _
  | ldI _ | addI _ | ldF _ => cases h; exact setI_changesOnly s _
  | rnd x _ => cases h; exact setRegDraw_changesOnly s x _ _
  | drw x y n => obtain ⟨-, rfl⟩ := execDrw_next.mp h; exact setVidVf_changesOnly s _ _
  | ldVxK _ => exact execLdVxK_changesOnly h
  | ldDtVx _ => cases h; exact setDt_changesOnly s _
  | ldStVx _ => cases h; exact setSt_changesOnly s _
  | ldB x => obtain ⟨-, rfl⟩ := checked_next.mp h; exact storeBytes_changesOnly s _ (bcdDigits _)
  | dump x => obtain ⟨-, rfl⟩ := checked_next.mp h; exact dumped_changesOnly s x
  | load x => obtain ⟨-, rfl⟩ := checked_next.mp h; exact loadedRegs_changesOnly s x
  | nop _ => cases h; exact ChangesOnly.rfl' _ s

/-- Settles O13, by the frame of each instruction. -/
theorem instructionsChangeOnlyTheirOwn : Obligations.InstructionsChangeOnlyTheirOwn :=
  fun _ _ _ h => exec_changesOnly h

end Sys2Proof.Machine
end

section
/-! What follows from the errors and frames of all instructions: which errors there are (R220 to R223), which
instructions write or read a piece of the state (`spec/10_state.md`), and the step that runs one of them. -/

namespace Sys2Proof

/-- The instruction reads KEY (R29, C8). -/
def Instr.readsKeys : Instr → Bool
  | .skp _ _ | .sknp _ _ | .ldVxK _ => true
  | _ => false

/-- The instruction reads or writes ST (R27). -/
def Instr.setsSound : Instr → Bool
  | .ldStVx _ => true
  | _ => false

/-- The instruction draws a free random byte (R107). -/
def Instr.draws : Instr → Bool
  | .rnd _ _ => true
  | _ => false

end Sys2Proof

namespace Sys2Proof.Machine

open Host (Outcome)

/-! ## Errors -/

theorem RaisesExactly.ne_refused {listed : Option Fault} {o : Outcome State Fault Refusal}
    (h : RaisesExactly listed o) (r : Refusal) : o ≠ .refused r := by
  cases listed with
  | some f => rw [show o = .fault f from h]; simp
  | none => obtain ⟨t, rfl⟩ := h; simp

/-- Settles O14: `exec_raisesExactly`, read off for an error listed and for none. -/
theorem instructionsFailExactlyAsListed : Obligations.InstructionsFailExactlyAsListed := by
  intro i s
  have exact_error := exec_raisesExactly i s
  refine ⟨fun f listed => exec_fault_iff.mpr listed, fun none_listed => ?_⟩
  rwa [none_listed] at exact_error

/-- Settles O11: the fetch answers a word or a fault, and no instruction is refused. -/
theorem noStepIsRefused : Obligations.NoStepIsRefused := by
  intro s r
  cases fetched : s.fetch with
  | none => simp [step_of_fetch_eq_none fetched]
  | some w =>
    rw [step_of_fetch_eq_some fetched]
    cases ran : exec (decode w) s.advance with
    | next t => simp
    | fault f => simp
    | refused r' => exact absurd ran ((exec_raisesExactly _ _).ne_refused r')

theorem errorIn_eq_memoryFault_iff {s : State} {i : Instr} :
    errorIn s i = some .memoryFault ↔
      (∃ x y n, i = .drw x y n ∧ n.toNat ≥ 1 ∧ s.i.toNat + n.toNat - 1 > 0xFFF)
      ∨ (∃ x, i = .ldB x ∧ s.i.toNat + 2 > 0xFFF)
      ∨ (∃ x, (i = .dump x ∨ i = .load x) ∧ s.i.toNat + x.toNat > 0xFFF) := by
  cases i with
  | drw _ _ _ | ldB _ => simp [errorIn]; omega
  | _ => simp [errorIn]

/-- Settles O17: the memory faults listed are those of R223, and a step adds that of its fetch. -/
theorem memoryFaultExactlyWhenOutside : Obligations.MemoryFaultExactlyWhenOutside := by
  refine ⟨fun i s => exec_fault_iff.trans errorIn_eq_memoryFault_iff, fun s => ?_⟩
  rw [step_fault_iff, State.fetch_eq_none_iff]
  simp

/-! ## Which instructions write a field -/

@[simp] theorem rollBack_mem (s : State) : s.rollBack.mem = s.mem := setPc_mem s _

@[simp] theorem skipIf_mem (s : State) (c : Bool) : (s.skipIf c).mem = s.mem := by
  cases c <;> rfl

/-- Settles O18: every other instruction answers a state made without a store. -/
theorem memoryWrittenOnlyByBcdAndDump : Obligations.MemoryWrittenOnlyByBcdAndDump := by
  intro i s t h not_bcd not_dump
  cases i with
  | ldB x => exact absurd rfl (not_bcd x)
  | dump x => exact absurd rfl (not_dump x)
  | ret _ => obtain ⟨k, -, rfl⟩ := execRet_next h; rfl
  | call _ => obtain ⟨k, -, rfl⟩ := execCall_next h; rfl
  | drw _ _ _ => obtain ⟨-, rfl⟩ := execDrw_next.mp h; rfl
  | skp _ _ | sknp _ _ => obtain ⟨-, rfl⟩ := skipOnKey_next.mp h; exact skipIf_mem s _
  | ldVxK _ => rcases execLdVxK_next h with ⟨k, -, rfl⟩ | ⟨-, rfl⟩ <;> simp
  | load x => obtain ⟨-, rfl⟩ := checked_next.mp h; simp only
  | seImm _ _ | sneImm _ _ | seReg _ _ _ | sneReg _ _ _ => cases h; exact skipIf_mem s _
  | _ => cases h; rfl

theorem mayChange_vid_eq_false {i : Instr} (s : State) (not_cls : ∀ g, i ≠ .cls g)
    (not_drw : ∀ x y n, i ≠ .drw x y n) :
    (mayChange s i).vid = false := by
  cases i with
  | cls g => exact absurd rfl (not_cls g)
  | drw x y n => exact absurd rfl (not_drw x y n)
  | _ => rfl

theorem mayChange_stk_eq_false {i : Instr} (s : State) (not_call : ∀ nnn, i ≠ .call nnn) :
    (mayChange s i).stk = false := by
  cases i with
  | call nnn => exact absurd rfl (not_call nnn)
  | _ => rfl

theorem mayChange_sp_eq_false {i : Instr} (s : State) (not_call : ∀ nnn, i ≠ .call nnn)
    (not_ret : ∀ g, i ≠ .ret g) :
    (mayChange s i).sp = false := by
  cases i with
  | call nnn => exact absurd rfl (not_call nnn)
  | ret g => exact absurd rfl (not_ret g)
  | _ => rfl

theorem mayChange_dt_eq_false {i : Instr} (s : State) (not_set : ∀ x, i ≠ .ldDtVx x) :
    (mayChange s i).dt = false := by
  cases i with
  | ldDtVx x => exact absurd rfl (not_set x)
  | _ => rfl

theorem mayChange_st_eq_false {i : Instr} (s : State) (not_set : ∀ x, i ≠ .ldStVx x) :
    (mayChange s i).st = false := by
  cases i with
  | ldStVx x => exact absurd rfl (not_set x)
  | _ => rfl

/-- Settles O19: only `CLS` and `DRW` have the screen in their frame. -/
theorem videoWrittenOnlyByClsAndDraw : Obligations.VideoWrittenOnlyByClsAndDraw :=
  fun _ s _ h not_cls not_drw => (exec_changesOnly h).vid (mayChange_vid_eq_false s not_cls not_drw)

/-- Settles O20: only `CALL` has the slots in its frame, and only `CALL` and `RET` have SP. -/
theorem stackTouchedOnlyByCallAndRet : Obligations.StackTouchedOnlyByCallAndRet :=
  fun _ s _ h not_call => ⟨(exec_changesOnly h).stk (mayChange_stk_eq_false s not_call),
    fun not_ret => (exec_changesOnly h).sp (mayChange_sp_eq_false s not_call not_ret)⟩

/-! ## Which instructions read KEY, ST and the free random input -/

/-- The state with KEY, ST and the draw index put through functions, and everything else as it is. -/
def State.mapUnread (key : Vector Bool 16 → Vector Bool 16) (st : Byte → Byte) (draw : Nat → Nat)
    (s : State) : State :=
  { s with key := key s.key, st := st s.st, rndIndex := draw s.rndIndex }

section
variable (key : Vector Bool 16 → Vector Bool 16) (st : Byte → Byte) (draw : Nat → Nat) (s : State)

theorem checked_mapUnread (last : Nat) (t : State) :
    (s.mapUnread key st draw).checked last (t.mapUnread key st draw)
      = mapNext (State.mapUnread key st draw) (s.checked last t) := by
  simp only [State.checked, apply_ite (mapNext _)]
  rfl

theorem setPc_mapUnread (w : Word) :
    (s.mapUnread key st draw).setPc w = (s.setPc w).mapUnread key st draw := rfl

theorem skipIf_mapUnread (c : Bool) :
    (s.mapUnread key st draw).skipIf c = (s.skipIf c).mapUnread key st draw := by
  cases c with
  | false => rfl
  | true => exact setPc_mapUnread key st draw s _

theorem skipOnKey_mapUnread (x : Reg) (pressed : Bool) :
    (s.mapUnread id st draw).skipOnKey x pressed
      = mapNext (State.mapUnread id st draw) (s.skipOnKey x pressed) := by
  simp only [State.skipOnKey, apply_ite (mapNext _), mapNext_next, ← skipIf_mapUnread]
  rfl

theorem execLdVxK_mapUnread (x : Reg) :
    execLdVxK x (s.mapUnread id st draw) = mapNext (State.mapUnread id st draw) (execLdVxK x s) := by
  have same_key : (s.mapUnread id st draw).firstKey = s.firstKey := rfl
  simp only [execLdVxK, same_key]
  cases s.firstKey with
  | some k => rfl
  | none => exact congrArg Outcome.next (setPc_mapUnread id st draw s _)

theorem execRet_mapUnread :
    execRet (s.mapUnread key st draw) = mapNext (State.mapUnread key st draw) (execRet s) := by
  simp only [execRet, apply_dite (mapNext _)]
  rfl

theorem execCall_mapUnread (nnn : Addr) :
    execCall nnn (s.mapUnread key st draw) = mapNext (State.mapUnread key st draw) (execCall nnn s) := by
  simp only [execCall, apply_dite (mapNext _)]
  rfl

theorem execDrw_mapUnread (x y : Reg) (n : Nibble) :
    execDrw x y n (s.mapUnread key st draw) = mapNext (State.mapUnread key st draw) (execDrw x y n s) := by
  simp only [execDrw, apply_ite (mapNext _), ← checked_mapUnread]
  rfl

theorem execRnd_mapUnread (x : Reg) (kk : Byte) :
    execRnd x kk (s.mapUnread key st id) = mapNext (State.mapUnread key st id) (execRnd x kk s) := rfl

theorem execLdStVx_mapUnread (x : Reg) :
    execLdStVx x (s.mapUnread key id draw) = mapNext (State.mapUnread key id draw) (execLdStVx x s) := rfl

/-- An instruction commutes with any change of KEY, ST and the draw index that leaves alone what the
instruction reads. -/
theorem exec_mapUnread {i : Instr} (keys : i.readsKeys = true → key = id)
    (sound : i.setsSound = true → st = id) (draws : i.draws = true → draw = id) :
    exec i (s.mapUnread key st draw) = mapNext (State.mapUnread key st draw) (exec i s) := by
  cases i with
  | ret _ => exact execRet_mapUnread key st draw s
  | call nnn => exact execCall_mapUnread key st draw s nnn
  | drw x y n => exact execDrw_mapUnread key st draw s x y n
  | seImm _ _ | sneImm _ _ | seReg _ _ _ | sneReg _ _ _ =>
    exact congrArg Outcome.next (skipIf_mapUnread key st draw s _)
  | ldB x =>
    exact checked_mapUnread key st draw s 2
      { s with mem := s.mem.writeBytes (s.ea 0) (bcdDigits (s.reg x)) }
  | dump x =>
    exact checked_mapUnread key st draw s x.toNat
      { s with mem := s.mem.writeBytes (s.ea 0) (s.regBlock x) }
  | load x => exact checked_mapUnread key st draw s x.toNat { s with v := s.loadedRegs x }
  | skp x _ | sknp x _ => cases keys rfl; exact skipOnKey_mapUnread st draw s x _
  | ldVxK x => cases keys rfl; exact execLdVxK_mapUnread st draw s x
  | ldStVx x => cases sound rfl; exact execLdStVx_mapUnread key draw s x
  | rnd x kk => cases draws rfl; exact execRnd_mapUnread key st s x kk
  | _ => rfl

end

/-- Settles O22: changing the keys alone. -/
theorem keypadReadByThreeInstructions : Obligations.KeypadReadByThreeInstructions := by
  intro i s keys not_skp not_sknp not_wait
  refine exec_mapUnread (fun _ => keys) id id s (fun reads => ?_) (fun _ => rfl) (fun _ => rfl)
  cases i with
  | skp x g => exact absurd rfl (not_skp x g)
  | sknp x g => exact absurd rfl (not_sknp x g)
  | ldVxK x => exact absurd rfl (not_wait x)
  | _ => cases reads

/-- Settles O23: changing ST alone; `LD ST, Vx` writes over it. -/
theorem soundTimerReadByNoInstruction : Obligations.SoundTimerReadByNoInstruction := by
  refine fun i s b => ⟨fun not_set => ?_, fun x => rfl⟩
  refine exec_mapUnread id (fun _ => b) id s (fun _ => rfl) (fun sets => ?_) (fun _ => rfl)
  cases i with
  | ldStVx x => exact absurd rfl (not_set x)
  | _ => cases sets

/-- Settles O24: changing the draw index alone. -/
theorem randomInputReadOnlyByRnd : Obligations.RandomInputReadOnlyByRnd := by
  intro i s k not_rnd
  refine exec_mapUnread id id (fun _ => k) s (fun _ => rfl) (fun _ => rfl) (fun draws => ?_)
  cases i with
  | rnd x kk => exact absurd rfl (not_rnd x kk)
  | _ => cases draws

/-- Settles O7: the meanings do not take the ignored bits as arguments, and the shifts do not use `y`. -/
theorem ignoredBitsHaveNoEffect : Obligations.IgnoredBitsHaveNoEffect := by
  intro s x y y' a b g h w w'
  exact ⟨rfl, rfl, rfl, rfl, rfl, rfl, rfl, rfl, rfl⟩

end Sys2Proof.Machine
end

section
/-! The step (`spec/40_cycle_dispatch.md` R100 to R106): what a step that answers a next state has done, the timers
at its end, the steps that change nothing else, and the run-down of the delay timer over a run. -/

namespace Sys2Proof.Machine

open Host (Outcome)

theorem mapNext_eq_next_iff {f : State → State} {o : Outcome State Fault Refusal} {t : State} :
    mapNext f o = .next t ↔ ∃ u, o = .next u ∧ t = f u := by
  cases o <;> simp [eq_comm]

/-- A step that answers a next state has fetched a word, run its instruction on the advanced PC, and
ticked. -/
theorem step_next_iff {s t : State} :
    step s = .next t ↔ ∃ w u, s.fetch = some w ∧ exec (decode w) s.advance = .next u ∧ t = u.tick := by
  cases fetched : s.fetch with
  | none => simp [step_of_fetch_eq_none fetched]
  | some w => simp [step_of_fetch_eq_some fetched, mapNext_eq_next_iff]

theorem step_of_exec {s u : State} {w : Word} {i : Instr} (fetched : s.fetch = some w)
    (decoded : decode w = i) (ran : exec i s.advance = .next u) : step s = .next u.tick :=
  step_next_iff.mpr ⟨w, u, fetched, by rw [decoded, ran], rfl⟩

/-- Settles O8: the fetch reads the two bytes, and the step is the instruction's outcome with the tick
after it. -/
theorem stepRunsDecodedInstruction : Obligations.StepRunsDecodedInstruction := by
  intro s i within decoded
  have runs : step s = mapNext State.tick (exec i s.advance) := by
    rw [step_of_fetch_eq_some (State.fetch_eq_joinBytes within), decoded]
  refine ⟨fun t ran => ?_, fun f failed => ?_, advance_pc_toNat s, advance_changesOnly s, fun t => ?_⟩
  · rw [runs, ran, mapNext_next]
  · rw [runs, failed, mapNext_fault]
  · exact ⟨tickTimer_toNat t.dt, tickTimer_toNat t.st, tick_changesOnly t⟩

/-- Settles O21: KEY is in the frame of no instruction, and the advance and the tick leave it alone. -/
theorem noStepWritesTheKeypad : Obligations.NoStepWritesTheKeypad := by
  intro s t h
  obtain ⟨w, u, -, ran, rfl⟩ := step_next_iff.mp h
  exact (exec_changesOnly ran).key

/-! ## The timers at the end of a step -/

section
variable {s t : State} {w : Word}

theorem step_dt_of_set {x : Reg} (fetched : s.fetch = some w) (sets : decode w = .ldDtVx x) :
    ∃ t, step s = .next t ∧ t.dt.toNat = (s.reg x).toNat - 1 :=
  ⟨_, step_of_exec fetched sets rfl, tickTimer_toNat (s.reg x)⟩

theorem step_st_of_set {x : Reg} (fetched : s.fetch = some w) (sets : decode w = .ldStVx x) :
    ∃ t, step s = .next t ∧ t.st.toNat = (s.reg x).toNat - 1 :=
  ⟨_, step_of_exec fetched sets rfl, tickTimer_toNat (s.reg x)⟩

theorem step_dt_of_not_set (h : step s = .next t)
    (not_set : ∀ w x, s.fetch = some w → decode w ≠ .ldDtVx x) : t.dt.toNat = s.dt.toNat - 1 := by
  obtain ⟨w, u, fetched, ran, rfl⟩ := step_next_iff.mp h
  have kept : u.dt = s.dt := (exec_changesOnly ran).dt (mayChange_dt_eq_false _ fun x => not_set w x fetched)
  rw [tick_dt, tickTimer_toNat, kept]

theorem step_st_of_not_set (h : step s = .next t)
    (not_set : ∀ w x, s.fetch = some w → decode w ≠ .ldStVx x) : t.st.toNat = s.st.toNat - 1 := by
  obtain ⟨w, u, fetched, ran, rfl⟩ := step_next_iff.mp h
  have kept : u.st = s.st := (exec_changesOnly ran).st (mayChange_st_eq_false _ fun x => not_set w x fetched)
  rw [tick_st, tickTimer_toNat, kept]

end

/-- Settles O10: a timer that the instruction sets ticks from the new value, one it does not set from the
old. -/
theorem timersTickOncePerStep : Obligations.TimersTickOncePerStep := by
  intro s t w fetched h
  refine ⟨fun x sets => ?_, fun not_set => ?_, fun x sets => ?_, fun not_set => ?_⟩
  · obtain ⟨t', h', e⟩ := step_dt_of_set fetched sets
    cases h.symm.trans h'
    exact e
  · exact step_dt_of_not_set h fun w' x fetched' => by cases fetched.symm.trans fetched'; exact not_set x
  · obtain ⟨t', h', e⟩ := step_st_of_set fetched sets
    cases h.symm.trans h'
    exact e
  · exact step_st_of_not_set h fun w' x fetched' => by cases fetched.symm.trans fetched'; exact not_set x

/-! ## Steps that do little -/

theorem advance_tick_changesOnly (s : State) :
    ChangesOnly { pc := true, dt := true, st := true } s s.advance.tick :=
  ((advance_changesOnly s).mono (by constructor <;> simp)).trans
    ((tick_changesOnly s.advance).mono (by constructor <;> simp))

/-- Settles O12: the execute phase of a no-op leaves the advanced state as it is, and the tick follows. -/
theorem noOpOnlyAdvancesAndTicks : Obligations.NoOpOnlyAdvancesAndTicks := by
  refine ⟨fun w => decode_of_noOpWord, fun w s => rfl, fun s w fetched no_op => ?_⟩
  exact ⟨s.advance.tick, step_of_exec fetched (decode_of_noOpWord no_op) rfl, advance_pc_toNat s,
    tickTimer_toNat s.dt, tickTimer_toNat s.st, advance_tick_changesOnly s⟩

/-- A step whose instruction brings the state back to what it was before the advance only ticks. -/
theorem step_only_ticks {s : State} {w : Word} {i : Instr} (fetched : s.fetch = some w)
    (decoded : decode w = i) (back : exec i s.advance = .next s) :
    step s = .next s.tick ∧ s.tick.dt.toNat = s.dt.toNat - 1 ∧ s.tick.st.toNat = s.st.toNat - 1
      ∧ ChangesOnly { dt := true, st := true } s s.tick :=
  ⟨step_of_exec fetched decoded back, tickTimer_toNat s.dt, tickTimer_toNat s.st, tick_changesOnly s⟩

/-- The two bytes of a self-jump are the opcode of `JP PC`. -/
theorem fetch_of_atSelfJump {s : State} (h : s.atSelfJump) :
    s.fetch = some (encode (.jp (s.pc.setWidth 12))) := by
  obtain ⟨hi, lo, within⟩ := h
  have hi_lt := (s.pc.extractLsb' 8 4).isLt
  rw [State.fetch_eq_joinBytes (by omega), hi, lo]
  refine congrArg some (BitVec.eq_of_toNat_eq ?_)
  rw [joinBytes_toNat, encode, Format.a_toNat, toNat_append_eq]
  simp only [BitVec.extractLsb'_toNat, BitVec.toNat_setWidth, BitVec.toNat_ofNat, Nat.shiftRight_eq_div_pow]
  omega

/-- Settles O38: the jump brings PC back to its own address, so only the tick is left. -/
theorem selfJumpOnlyTicks : Obligations.SelfJumpOnlyTicks := by
  intro s h
  have within : s.pc.toNat < 0xFFF := h.2.2
  have target : zextAddr (s.pc.setWidth 12) = s.pc := by
    apply BitVec.eq_of_toNat_eq
    rw [zextAddr_toNat, BitVec.toNat_setWidth]
    omega
  have back : exec (.jp (s.pc.setWidth 12)) s.advance = .next s := by
    show Outcome.next (s.setPc (zextAddr _)) = _
    rw [target]
    rfl
  obtain ⟨stepped, dt, st, frame⟩ :=
    step_only_ticks (fetch_of_atSelfJump h) (decodeInvertsEncode _ rfl) back
  exact ⟨_, stepped, dt, st, frame, h⟩

/-- Settles O58: with no key pressed the roll-back undoes the advance, so only the tick is left. -/
theorem suspendedStepOnlyTicks : Obligations.SuspendedStepOnlyTicks := by
  intro s addr suspended
  obtain ⟨⟨w, x, fetched, waits⟩, no_key⟩ := suspended
  have back : exec (.ldVxK x) s.advance = .next s := by
    have no_first : s.advance.firstKey = none := firstKey_eq_none no_key
    rw [exec, execLdVxK, no_first, rollBack_advance s addr]
  obtain ⟨stepped, dt, st, frame⟩ := step_only_ticks fetched waits back
  exact ⟨_, stepped, dt, st, frame, ⟨w, x, fetched, waits⟩, no_key⟩

/-! ## The run-down of the delay timer (R205) -/

theorem run_succ_next {n : Nat} {s t : State} :
    Host.Core.run core (n + 1) s = .next t
      ↔ ∃ u : State, step s = .next u ∧ Host.Core.run core n u = .next t := by
  cases stepped : step s with
  | next u => simp [Host.Core.run, show core.step s = .next u from stepped]
  | fault f => simp [Host.Core.run, show core.step s = .fault f from stepped]
  | refused r => simp [Host.Core.run, show core.step s = .refused r from stepped]

/-- One off for each step of a run none of whose steps sets DT. -/
theorem run_dt {n : Nat} {s t : State} (run : Host.Core.run core n s = .next t)
    (not_set : ∀ m u w x, m < n → Host.Core.run core m s = .next u → State.fetch u = some w →
      decode w ≠ .ldDtVx x) : t.dt.toNat = s.dt.toNat - n := by
  induction n generalizing s with
  | zero => cases run; rfl
  | succ n ih =>
    obtain ⟨u, stepped, rest⟩ := run_succ_next.mp run
    have first : u.dt.toNat = s.dt.toNat - 1 :=
      step_dt_of_not_set stepped fun w x => not_set 0 s w x (by omega) rfl
    have later : t.dt.toNat = u.dt.toNat - n :=
      ih rest fun m v w x lt ran => not_set (m + 1) v w x (by omega) (run_succ_next.mpr ⟨u, stepped, ran⟩)
    omega

/-- Settles O60: the setting, the tick of the same step, and the run-down. -/
theorem delaySetRunsDown : Obligations.DelaySetRunsDown :=
  ⟨selectedBy_ldDtVx, fun _ s => ⟨_, rfl, setDt_changesOnly s _, rfl⟩,
    fun _ _ _ fetched sets => step_dt_of_set fetched sets, fun _ _ _ run not_set => run_dt run not_set⟩

/-- Settles O59: the tone is on exactly when ST is not 0 after the tick. -/
theorem timerReadAndSoundSet : Obligations.TimerReadAndSoundSet := by
  refine ⟨selectedBy_ldVxDt, selectedBy_ldStVx, fun x s => ⟨?_, ?_⟩, fun x s w fetched => ⟨?_, ?_⟩⟩
  · exact ⟨_, rfl, setReg_changesOnly s x _, reg_setReg_self s x _⟩
  · exact ⟨_, rfl, setSt_changesOnly s _, rfl⟩
  · intro reads
    exact ⟨_, step_of_exec fetched reads rfl, reg_setReg_self _ x _, tickTimer_toNat s.dt⟩
  · intro sets
    obtain ⟨t, stepped, st⟩ := step_st_of_set fetched sets
    have tone : t.toneOn = true ↔ t.st.toNat ≠ 0 := by
      simp [State.toneOn, State.getSoundTimer, ← BitVec.toNat_inj]
    exact ⟨t, stepped, st, by rw [tone, st]; omega⟩

end Sys2Proof.Machine
end

section
/-! The invariant (`spec/10_state.md` R22, R23, R32): every instruction keeps it part by part, so every step and
every session of the host does; and the state after reset, which meets it. -/

namespace Sys2Proof.Machine

open Host (Outcome)

/-! ## What an instruction keeps -/

section
variable {i : Instr} {s t : State}

/-- Only the two stores write memory, within its 4096 bytes once they are checked. -/
theorem exec_keeps_mem_wf (wf : s.mem.wf = true) (h : exec i s = .next t) : t.mem.wf = true := by
  cases i with
  | ldB x =>
    obtain ⟨within, rfl⟩ := checked_next.mp h
    exact Memory.wf_writeBytes (by simp [State.ea, bcdDigits]; omega) wf
  | dump x =>
    obtain ⟨within, rfl⟩ := checked_next.mp h
    exact Memory.wf_writeBytes (by rw [regBlock_length, State.ea]; omega) wf
  | _ => rwa [memoryWrittenOnlyByBcdAndDump _ s t h (by simp) (by simp)]

theorem zextAddr_lt (nnn : Addr) : (zextAddr nnn).toNat < 4096 := by
  rw [zextAddr_toNat]; exact nnn.isLt

theorem wrap_lt (n : Nat) : (wrap n).toNat < 4096 := by
  rw [wrap_toNat]; exact Nat.mod_lt n (by decide)

theorem skipIf_pc_lt (addr : s.pc.toNat < 4096) (c : Bool) : (s.skipIf c).pc.toNat < 4096 := by
  rcases skipIf_cases s c with ⟨-, e⟩ | ⟨-, e⟩ <;> rw [e]
  · exact wrap_lt _
  · exact addr

/-- PC is written by the control transfers alone, with an address or a wrapped sum. -/
theorem exec_keeps_pc_lt (addr : s.pc.toNat < 4096) (h : exec i s = .next t) : t.pc.toNat < 4096 := by
  cases i with
  | jp nnn => cases h; exact zextAddr_lt nnn
  | jpV0 _ => cases h; exact wrap_lt _
  | call nnn => obtain ⟨k, -, rfl⟩ := execCall_next h; exact zextAddr_lt nnn
  | ret _ => obtain ⟨k, -, rfl⟩ := execRet_next h; exact wrap_lt _
  | seImm _ _ | sneImm _ _ | seReg _ _ _ | sneReg _ _ _ => cases h; exact skipIf_pc_lt addr _
  | skp _ _ | sknp _ _ => obtain ⟨-, rfl⟩ := skipOnKey_next.mp h; exact skipIf_pc_lt addr _
  | ldVxK _ =>
    rcases execLdVxK_next h with ⟨k, -, rfl⟩ | ⟨-, rfl⟩
    · exact addr
    · exact wrap_lt _
  | _ => rwa [(exec_changesOnly h).pc rfl]

/-- I is written by three instructions, and the greatest glyph address is 0x54B. -/
theorem exec_keeps_i_lt (addr : s.i.toNat < 4096) (h : exec i s = .next t) : t.i.toNat < 4096 := by
  cases i with
  | ldI nnn => cases h; exact zextAddr_lt nnn
  | addI _ => cases h; exact wrap_lt _
  | ldF x =>
    cases h
    have byte := (s.reg x).isLt
    show (glyphAddress (s.reg x)).toNat < 4096
    rw [glyphAddress_toNat]; omega
  | _ => rwa [(exec_changesOnly h).i rfl]

theorem pushed_stk (k j : Fin 16) (nnn : Addr) :
    (s.pushed k nnn).stk[j.val] = if j = k then s.pc else s.stk[j.val] := by
  simp only [State.pushed, Vector.getElem_set, Fin.ext_iff, eq_comm]

/-- The only slot written is the one `CALL` gives the PC. -/
theorem exec_keeps_stk_lt (addr : s.pc.toNat < 4096) (slots : ∀ k : Fin 16, s.stk[k.val].toNat < 4096)
    (h : exec i s = .next t) (j : Fin 16) : t.stk[j.val].toNat < 4096 := by
  cases i with
  | call nnn =>
    obtain ⟨k, -, rfl⟩ := execCall_next h
    rw [pushed_stk]
    split
    · exact addr
    · exact slots j
  | _ => simpa [(exec_changesOnly h).stk rfl] using slots j

theorem exec_keeps_inv (inv : s.Inv) (h : exec i s = .next t) : t.Inv where
  mem_wf := exec_keeps_mem_wf inv.mem_wf h
  pc_lt := exec_keeps_pc_lt inv.pc_lt h
  i_lt := exec_keeps_i_lt inv.i_lt h
  stk_lt := exec_keeps_stk_lt inv.pc_lt inv.stk_lt h

end

/-! ## What the cycle and the host keep -/

theorem State.Inv.advance {s : State} (inv : s.Inv) : s.advance.Inv :=
  ⟨inv.mem_wf, wrap_lt _, inv.i_lt, inv.stk_lt⟩

theorem State.Inv.tick {s : State} (inv : s.Inv) : s.tick.Inv :=
  ⟨inv.mem_wf, inv.pc_lt, inv.i_lt, inv.stk_lt⟩

theorem State.Inv.setKey {s : State} (inv : s.Inv) (k : Nibble) (pressed : Bool) :
    (s.setKey k pressed).Inv :=
  ⟨inv.mem_wf, inv.pc_lt, inv.i_lt, inv.stk_lt⟩

/-- Settles O26: the advance, the instruction and the tick each keep the invariant. -/
theorem stepKeepsTheInvariant : Obligations.StepKeepsTheInvariant := by
  intro s t inv h
  obtain ⟨w, u, -, ran, rfl⟩ := step_next_iff.mp h
  exact (exec_keeps_inv inv.advance ran).tick

/-- A program that fits is stored from 0x200 on; a longer one is refused. -/
theorem loadProgram_ok_iff {s t : State} {bytes : List Byte} :
    s.loadProgram bytes = .ok t
      ↔ bytes.length ≤ 3584 ∧ t = { s with mem := s.mem.writeBytes 0x200 bytes } := by
  by_cases long : bytes.length > 3584
  · simp [State.loadProgram, long]
  · simp [State.loadProgram, long, Nat.not_lt.mp long, eq_comm]

theorem loadFrom_keeps_inv {s t : State} {source : Option (List Byte)} (inv : s.Inv)
    (h : s.loadFrom source = .ok t) : t.Inv := by
  cases source with
  | none => cases h
  | some bytes =>
    obtain ⟨fits, rfl⟩ := loadProgram_ok_iff.mp h
    exact ⟨Memory.wf_writeBytes (by omega) inv.mem_wf, inv.pc_lt, inv.i_lt, inv.stk_lt⟩

theorem move_keeps_inv {s t : State} {m : Move} (inv : s.Inv) (h : s.move m = .next t) : t.Inv := by
  cases m with
  | setKey k pressed => cases h; exact inv.setKey k pressed
  | step => exact stepKeepsTheInvariant s t inv h

theorem moves_cons_next {s t : State} {m : Move} {ms : List Move} :
    s.moves (m :: ms) = .next t ↔ ∃ u, s.move m = .next u ∧ u.moves ms = .next t := by
  cases moved : s.move m <;> simp [State.moves, moved]

theorem moves_keep_inv {s t : State} {ms : List Move} (inv : s.Inv) (h : s.moves ms = .next t) : t.Inv := by
  induction ms generalizing s with
  | nil => cases h; exact inv
  | cons m ms ih =>
    obtain ⟨u, moved, rest⟩ := moves_cons_next.mp h
    exact ih (move_keeps_inv inv moved) rest

/-- Settles O27, by induction over the moves. -/
theorem hostMovesKeepTheInvariant : Obligations.HostMovesKeepTheInvariant :=
  fun _ inv => ⟨fun _ _ h => loadFrom_keeps_inv inv h, fun _ _ h => moves_keep_inv inv h⟩

/-! ## Reset (R36) -/

theorem reset_inv : State.reset.Inv := ⟨rfl, by decide, by decide, by decide⟩

/-- Settles O25: another `FONT` is stored bytes, and nothing else differs. -/
theorem resetMeetsTheInvariant : Obligations.ResetMeetsTheInvariant :=
  ⟨reset_inv, fun p => ⟨resetWith_mem_wf p, reset_inv.pc_lt, reset_inv.i_lt, reset_inv.stk_lt⟩⟩

/-- The default font is what an unlisted address reads as, so storing it lists nothing. -/
theorem resetWith_defaultParams : State.resetWith defaultParams = State.reset := by
  rfl

theorem reset_mem_read (a : Nat) : State.reset.mem.read a = unlisted a := rfl

theorem resetWith_changesOnly (p : Params) :
    ChangesOnly { storeAt := 0x050, storeLen := 80 } State.reset (State.resetWith p) := by
  have h := storeBytes_changesOnly State.reset 0x050 p.font.toList
  rwa [Vector.length_toList] at h

/-- Settles O29: registers, keys and cells are those of `State.reset` as it is written, and a byte that memory
does not list is the default font's or 0. -/
theorem resetStateValues : Obligations.ResetStateValues := by
  refine ⟨rfl, by decide, rfl, by decide, rfl, rfl, rfl, by decide, ?_, rfl, fun k b hk => ?_, fun a ha => ?_,
    resetWith_defaultParams, fun p => ⟨resetWith_mem_read_font p, resetWith_changesOnly p⟩⟩
  · exact Screen.cell_blank
  · obtain ⟨lt, rfl⟩ := List.getElem?_eq_some_iff.mp hk
    have : font.length = 80 := rfl
    rw [reset_mem_read, unlisted, if_pos (by omega)]
    simp [lt]
  · rw [reset_mem_read, unlisted, if_neg (by omega)]

/-! ## Loading and keys (R255, R29) -/

/-- Settles O30: a load is a block of stores from 0x200 on, and one that fits ends at 0xFFF. -/
theorem loadCopiesTheProgram : Obligations.LoadCopiesTheProgram := by
  refine fun s bytes => ⟨fun long => if_pos long, fun fits => ?_, rfl⟩
  exact ⟨_, loadProgram_ok_iff.mpr ⟨fits, rfl⟩, storeBytes_changesOnly s 0x200 bytes,
    fun wf k b hk => Memory.read_writeBytes_inside (by omega) wf hk⟩

/-- Settles O31: a key is one entry of the vector. -/
theorem setKeyWritesOneKey : Obligations.SetKeyWritesOneKey := by
  refine fun s k pressed => ⟨fun j => ?_, rfl⟩
  simp only [State.keyDown, State.setKey, Vector.getElem_set, ← BitVec.toNat_inj, eq_comm]

/-! ## Memory as data, and what a fetch reads of it -/

section
variable {m m' : Memory} {a b : Nat} {v w : Byte}

/-- The first address listed does not read as unlisted, so a memory that reads the same lists an address up
to it. -/
theorem not_above_of_same_reads (wf : Memory.wf ((a, v) :: m) = true)
    (same : ∀ c, Memory.read ((a, v) :: m) c = m'.read c) : ¬∀ c ∈ m', a < c.1 := by
  intro above
  obtain ⟨-, listed, -, -⟩ := (Memory.wf_cons a v m).mp wf
  have e := same a
  rw [Memory.read_cons, if_pos rfl, Memory.read_of_lt above] at e
  exact listed e

/-- The same for the first addresses of two memories. -/
theorem first_le_of_same_reads (wf : Memory.wf ((a, v) :: m) = true) (wf' : Memory.wf ((b, w) :: m') = true)
    (same : ∀ c, Memory.read ((a, v) :: m) c = Memory.read ((b, w) :: m') c) : b ≤ a := by
  obtain ⟨-, -, rising, -⟩ := (Memory.wf_cons b w m').mp wf'
  by_contra above
  refine not_above_of_same_reads wf same fun c hc => ?_
  rcases List.mem_cons.mp hc with rfl | hc
  · omega
  · exact lt_trans (by omega) (rising c hc)

/-- Memories with the same first address read the same past it too. -/
theorem tail_reads_same (wf : Memory.wf ((a, v) :: m) = true) (wf' : Memory.wf ((a, w) :: m') = true)
    (same : ∀ c, Memory.read ((a, v) :: m) c = Memory.read ((a, w) :: m') c) (c : Nat) :
    m.read c = m'.read c := by
  obtain ⟨-, -, rising, -⟩ := (Memory.wf_cons a v m).mp wf
  obtain ⟨-, -, rising', -⟩ := (Memory.wf_cons a w m').mp wf'
  by_cases first : a = c
  · rw [← first, Memory.read_of_lt rising, Memory.read_of_lt rising']
  · simpa [Memory.read_cons, first] using same c

end

/-- Settles O28, by induction on both lists: their first addresses are each at most the other. -/
theorem equalReadsMeanEqualMemory : Obligations.EqualReadsMeanEqualMemory := by
  intro m
  induction m with
  | nil =>
    intro m' _ wf' same
    cases m' with
    | nil => rfl
    | cons d m' => exact absurd (by simp) (not_above_of_same_reads wf' fun c => (same c).symm)
  | cons d m ih =>
    intro m' wf wf' same
    cases m' with
    | nil => exact absurd (by simp) (not_above_of_same_reads wf same)
    | cons d' m' =>
      obtain ⟨a, v⟩ := d
      obtain ⟨b, w⟩ := d'
      obtain rfl : a = b :=
        le_antisymm (first_le_of_same_reads wf' wf fun c => (same c).symm) (first_le_of_same_reads wf wf' same)
      have first : v = w := by simpa [Memory.read_cons] using same a
      have rest : m = m' :=
        ih m' ((Memory.wf_cons _ _ _).mp wf).2.2.2 ((Memory.wf_cons _ _ _).mp wf').2.2.2
          (tail_reads_same wf wf' same)
      rw [first, rest]

theorem joinBytes_wordBytes (w : Word) : joinBytes (w.extractLsb' 8 8) (w.extractLsb' 0 8) = w := by
  have lt := w.isLt
  apply BitVec.eq_of_toNat_eq
  simp only [joinBytes_toNat, BitVec.extractLsb'_toNat, Nat.shiftRight_eq_div_pow]
  omega

/-- The place where an opcode is put can be fetched. -/
theorem fetchPlace_within (s : State) : s.fetchPlace.toNat + 1 ≤ 0xFFF := by
  unfold State.fetchPlace
  split
  · decide
  · omega

theorem placeWord_read {s : State} (wf : s.mem.wf = true) {w : Word} {k : Nat} {b : Byte}
    (hk : (wordBytes w)[k]? = some b) : (s.placeWord w).mem.read (s.fetchPlace.toNat + k) = b := by
  have within := fetchPlace_within s
  exact Memory.read_writeBytes_inside (by simp only [wordBytes, List.length_cons, List.length_nil]; omega) wf hk

theorem fetch_placeWord {s : State} (wf : s.mem.wf = true) (w : Word) : (s.placeWord w).fetch = some w := by
  have hi := placeWord_read wf (w := w) (k := 0) rfl
  have lo := placeWord_read wf (w := w) (k := 1) rfl
  rw [State.fetch_eq_joinBytes (s := s.placeWord w) (fetchPlace_within s)]
  exact congrArg some ((congrArg₂ joinBytes hi lo).trans (joinBytes_wordBytes w))

/-- Settles O32: an opcode of 16 bits is placed as it is. -/
theorem placedWordIsFetched : Obligations.PlacedWordIsFetched := by
  intro s w wf lt
  have word : tableWord 16 w = BitVec.ofNat 16 w := by rw [tableWord, Nat.mod_eq_of_lt (show w < 2 ^ 16 from lt)]
  rw [State.withFetchWord, word]
  exact fetch_placeWord wf _

end Sys2Proof.Machine
end

section
/-! Control transfer, the register arithmetic and the index register (`spec/41_control_transfer.md`,
`spec/42_load_alu.md`, `spec/43_index_memory.md` R170 to R172), each with its encoding. -/

namespace Sys2Proof.Machine

/-! ## The stack -/

/-- Settles O33: with SP = k + 1 the slot popped is slot k. -/
theorem retPopsTheReturnAddress : Obligations.RetPopsTheReturnAddress := by
  refine ⟨selectedBy_ret, fun ign s => ⟨fun empty => dif_pos empty, fun k held => ?_⟩⟩
  refine ⟨_, execRet_of_sp held, rfl, wrap_toNat _, fun addr => ?_, popped_changesOnly s k⟩
  exact BitVec.eq_of_toNat_eq ((wrap_toNat _).trans (Nat.mod_eq_of_lt addr))

/-- Settles O34: with SP = k the slot pushed is slot k. -/
theorem callPushesTheReturnAddress : Obligations.CallPushesTheReturnAddress := by
  refine ⟨selectedBy_call, fun nnn s => ⟨fun full => dif_neg (by omega), fun k held => ?_⟩⟩
  exact ⟨_, execCall_of_sp nnn held, by simp [pushed_stk], fun j ne => by simp [pushed_stk, ne], rfl,
    zextAddr_toNat nnn, pushed_changesOnly s k nnn⟩

/-- Settles O37: the slot the `CALL` wrote is the one the `RET` reads, and a PC below 4096 is not changed by
the reduction. -/
theorem callThenRetReturns : Obligations.CallThenRetReturns := by
  intro nnn ign s t addr h
  obtain ⟨k, held, rfl⟩ := execCall_next h
  have pc : ((s.pushed k nnn).popped k).pc = s.pc := by
    apply BitVec.eq_of_toNat_eq
    show (wrap (s.pushed k nnn).stk[k.val].toNat).toNat = _
    rw [wrap_toNat, pushed_stk, if_pos rfl, Nat.mod_eq_of_lt addr]
  have sp : ((s.pushed k nnn).popped k).sp = s.sp := Fin.ext held.symm
  have frame : ChangesOnly { pc := true, sp := true, stk := true } s ((s.pushed k nnn).popped k) :=
    (pushed_changesOnly s k nnn).trans
      ((popped_changesOnly (s.pushed k nnn) k).mono (by constructor <;> simp))
  refine ⟨_, execRet_of_sp rfl, pc, sp, { frame with pc := fun _ => pc, sp := fun _ => sp }, ?_⟩
  intro j other
  show (s.pushed k nnn).stk[j.val] = _
  rw [pushed_stk, if_neg (fun e => other (by rw [e, held]))]

/-! ## Jumps and skips -/

/-- Settles O35: an address immediate is below 4096 as it stands, and the sum is wrapped. -/
theorem jumpsSetThePc : Obligations.JumpsSetThePc :=
  ⟨selectedBy_jp, selectedBy_jpV0, fun nnn s =>
    ⟨⟨_, rfl, zextAddr_toNat nnn, setPc_changesOnly s _⟩, ⟨_, rfl, wrap_toNat _, setPc_changesOnly s _⟩⟩⟩

theorem skipIf_pc_toNat (s : State) (c : Bool) :
    (s.skipIf c).pc.toNat = if c = true then (s.pc.toNat + 2) % 4096 else s.pc.toNat := by
  rcases skipIf_cases s c with ⟨rfl, e⟩ | ⟨rfl, e⟩ <;> rw [e]
  · exact advance_pc_toNat s
  · rfl

/-- A skip on a condition: nothing but PC changes, and PC moves on when the condition holds. -/
theorem skipIf_skips (s : State) (c : Bool) {p : Prop} [Decidable p] (cond : c = true ↔ p) :
    ChangesOnly { pc := true } s (s.skipIf c)
      ∧ (s.skipIf c).pc.toNat = if p then (s.pc.toNat + 2) % 4096 else s.pc.toNat := by
  refine ⟨skipIf_changesOnly s c, ?_⟩
  rw [skipIf_pc_toNat]
  exact if_congr cond rfl rfl

/-- Settles O36: each of the four is a skip on its comparison. -/
theorem comparingSkips : Obligations.ComparingSkips := by
  refine ⟨selectedBy_seImm, selectedBy_sneImm, selectedBy_seReg, selectedBy_sneReg, ?_⟩
  exact fun x y kk ign s => ⟨⟨_, rfl, skipIf_skips s _ beq_iff_eq⟩, ⟨_, rfl, skipIf_skips s _ bne_iff_ne⟩,
    ⟨_, rfl, skipIf_skips s _ beq_iff_eq⟩, ⟨_, rfl, skipIf_skips s _ bne_iff_ne⟩⟩

/-! ## Loads and bitwise operations -/

/-- Settles O39: each is one register write, and an addition of bytes is modulo 256. -/
theorem loadsAndAddImmediate : Obligations.LoadsAndAddImmediate := by
  refine ⟨selectedBy_ldImm, selectedBy_addImm, selectedBy_ldReg, fun x y kk s => ⟨?_, ?_, ?_⟩⟩
  · exact ⟨_, rfl, setReg_changesOnly s x _, reg_setReg_self s x _⟩
  · exact ⟨_, rfl, setReg_changesOnly s x _, by rw [reg_setReg_self, BitVec.toNat_add]⟩
  · exact ⟨_, rfl, setReg_changesOnly s x _, reg_setReg_self s x _⟩

/-- Settles O40: each is one register write, of the library's bitwise operation. -/
theorem bitwiseOperations : Obligations.BitwiseOperations := by
  refine ⟨selectedBy_orReg, selectedBy_andReg, selectedBy_xorReg, fun x y s => ⟨?_, ?_, ?_⟩⟩
  · exact ⟨_, rfl, setReg_changesOnly s x _, fun b => by rw [reg_setReg_self, BitVec.getLsbD_or]⟩
  · exact ⟨_, rfl, setReg_changesOnly s x _, fun b => by rw [reg_setReg_self, BitVec.getLsbD_and]⟩
  · exact ⟨_, rfl, setReg_changesOnly s x _, fun b => by rw [reg_setReg_self, BitVec.getLsbD_xor]⟩

/-- Settles O44: one register write, whatever the byte of the draw, and the next index. -/
theorem randomByteIsMasked : Obligations.RandomByteIsMasked :=
  fun x _ s => ⟨_, rfl, setRegDraw_changesOnly s x _ _, reg_setReg_self s x _, rfl⟩

/-! ## Arithmetic with a flag -/

section
variable (s : State) (x : Reg) (flag result : Byte)

theorem setFlagThenReg_reg_self : (s.setFlagThenReg x flag result).reg x = result :=
  reg_setReg_self _ x result

/-- The result is written last, so the flag is there to be seen in every register but VF (D6). -/
theorem setFlagThenReg_reg_vf (not_vf : x ≠ VF) : (s.setFlagThenReg x flag result).reg VF = flag := by
  rw [State.setFlagThenReg, reg_setReg_ne _ _ _ _ not_vf.symm, reg_setReg_self]

end

theorem flagByte_toNat (b : Bool) : (flagByte b).toNat = b.toNat := by
  cases b <;> rfl

theorem flagByte_decide (p : Prop) [Decidable p] : flagByte (decide p) = if p then 1#8 else 0#8 := by
  simp [flagByte]

theorem flagByte_zero_or_one (b : Bool) : flagByte b = 0#8 ∨ flagByte b = 1#8 := by
  cases b <;> simp [flagByte]

/-- Settles O41: the sum is read back from V[x], and the carry from VF. -/
theorem addSetsCarry : Obligations.AddSetsCarry := by
  refine fun x y s => ⟨_, rfl, setFlagThenReg_changesOnly s x _ _, ?_, fun not_vf => ?_⟩
  · rw [setFlagThenReg_reg_self, BitVec.toNat_add]
  · rw [setFlagThenReg_reg_vf s x _ _ not_vf, carry, flagByte_decide]

/-- A difference as the spec writes it, with 256 borrowed first. -/
theorem sub_toNat (a b : Byte) : (a - b).toNat = (a.toNat + 256 - b.toNat) % 256 := by
  have := a.isLt; have := b.isLt
  rw [BitVec.toNat_sub]; omega

/-- Settles O42: the two differ only in which operand is the minuend. -/
theorem subtractsSetStrictNoBorrow : Obligations.SubtractsSetStrictNoBorrow := by
  refine fun x y s => ⟨⟨_, rfl, setFlagThenReg_changesOnly s x _ _, ?_, fun not_vf => ?_⟩,
    ⟨_, rfl, setFlagThenReg_changesOnly s x _ _, ?_, fun not_vf => ?_⟩⟩
  · rw [setFlagThenReg_reg_self, sub_toNat]
  · rw [setFlagThenReg_reg_vf s x _ _ not_vf, noBorrow, flagByte_decide]
  · rw [setFlagThenReg_reg_self, sub_toNat]
  · rw [setFlagThenReg_reg_vf s x _ _ not_vf, noBorrow, flagByte_decide]

theorem shiftedOutRight_toNat (a : Byte) : (shiftedOutRight a).toNat = a.toNat % 2 := by
  rw [shiftedOutRight, flagByte_toNat, BitVec.getLsbD, Nat.toNat_testBit]
  simp

theorem shiftedOutLeft_toNat (a : Byte) : (shiftedOutLeft a).toNat = a.toNat / 128 := by
  have := a.isLt
  rw [shiftedOutLeft, flagByte_toNat, BitVec.getLsbD, Nat.toNat_testBit]
  omega

/-- Settles O43: a shift by one halves or doubles, and the bit lost is the remainder or the quotient. -/
theorem shiftsSetShiftedOutBit : Obligations.ShiftsSetShiftedOutBit := by
  refine fun x y s => ⟨⟨_, rfl, setFlagThenReg_changesOnly s x _ _, ?_, fun not_vf => ?_⟩,
    ⟨_, rfl, setFlagThenReg_changesOnly s x _ _, ?_, fun not_vf => ?_⟩⟩
  · rw [setFlagThenReg_reg_self, BitVec.toNat_ushiftRight, Nat.shiftRight_eq_div_pow, pow_one]
  · rw [setFlagThenReg_reg_vf s x _ _ not_vf, shiftedOutRight_toNat]
  · rw [setFlagThenReg_reg_self, BitVec.toNat_shiftLeft, Nat.shiftLeft_eq, pow_one]
  · rw [setFlagThenReg_reg_vf s x _ _ not_vf, shiftedOutLeft_toNat]

/-- Settles O45: VF holds a flag's byte. -/
theorem flagsAreZeroOrOne : Obligations.FlagsAreZeroOrOne := by
  intro i x y n s t not_vf listed h
  have flag : ∃ b, t.reg VF = flagByte b := by
    simp only [List.mem_cons, List.not_mem_nil, or_false] at listed
    rcases listed with rfl | rfl | rfl | rfl | rfl | rfl | rfl
    case inr.inr.inr.inr.inr.inl | inr.inr.inr.inr.inr.inr =>
      obtain ⟨-, rfl⟩ := execDrw_next.mp h
      exact ⟨_, reg_setReg_self _ VF _⟩
    all_goals
      cases h
      exact ⟨_, setFlagThenReg_reg_vf s x _ _ not_vf⟩
  obtain ⟨b, e⟩ := flag
  rw [e]
  exact flagByte_zero_or_one b

/-! ## The index register -/

/-- Settles O46: I is written with a wrapped sum. -/
theorem addToIndexWraps : Obligations.AddToIndexWraps :=
  ⟨selectedBy_addI, fun _ s => ⟨_, rfl, setI_changesOnly s _, wrap_toNat _⟩⟩

/-- Settles O47: the address immediate fits, and so does the greatest glyph address. -/
theorem indexLoads : Obligations.IndexLoads :=
  fun nnn x s => ⟨⟨_, rfl, setI_changesOnly s _, zextAddr_toNat nnn⟩,
    ⟨_, rfl, setI_changesOnly s _, glyphAddress_toNat (s.reg x)⟩⟩

end Sys2Proof.Machine
end

section
/-! The memory instructions (`spec/43_index_memory.md` R173 to R177), what they leave in memory, and the fetch after
a store (`spec/20_memory.md` R61). -/

namespace Sys2Proof.Machine

/-- The three digits of a byte are the three bytes stored. -/
theorem bcdDigits_toNat (v : Byte) :
    (v / 100#8).toNat = v.toNat / 100 ∧ (v / 10#8 % 10#8).toNat = v.toNat / 10 % 10
      ∧ (v % 10#8).toNat = v.toNat % 10 := by
  simp [BitVec.toNat_udiv, BitVec.toNat_umod]

/-- Settles O48: once I + 2 is checked the three digits are stored and read back in place. -/
theorem bcdStoresDigits : Obligations.BcdStoresDigits := by
  refine ⟨selectedBy_ldB, fun x s => ⟨fun above => checked_fault.mpr ⟨above, rfl⟩, fun within => ?_⟩⟩
  refine ⟨_, checked_next.mpr ⟨within, rfl⟩, storeBytes_changesOnly s (s.ea 0) (bcdDigits (s.reg x)),
    fun wf => ?_⟩
  have stored {k : Nat} {b : Byte} (hk : (bcdDigits (s.reg x))[k]? = some b) :
      (s.mem.writeBytes (s.ea 0) (bcdDigits (s.reg x))).read (s.i.toNat + k) = b :=
    Memory.read_writeBytes_inside (a := s.ea 0) (by simp [State.ea, bcdDigits]; omega) wf hk
  obtain ⟨hundreds, tens, units⟩ := bcdDigits_toNat (s.reg x)
  exact ⟨(congrArg BitVec.toNat (stored (k := 0) rfl)).trans hundreds,
    (congrArg BitVec.toNat (stored (k := 1) rfl)).trans tens,
    (congrArg BitVec.toNat (stored (k := 2) rfl)).trans units⟩

/-- What a dump that does not fault leaves at each of its addresses. -/
theorem execDump_read {s t : State} {x k : Reg} (wf : s.mem.wf = true) (h : execDump x s = .next t)
    (upto : k.toNat ≤ x.toNat) : t.mem.read (s.i.toNat + k.toNat) = s.reg k := by
  obtain ⟨within, rfl⟩ := checked_next.mp h
  exact Memory.read_writeBytes_inside (a := s.ea 0) (by rw [regBlock_length, State.ea]; omega) wf
    (regBlock_getElem s x k upto)

/-- Settles O49: once I + x is checked the registers are stored and read back in place. -/
theorem dumpStoresRegisters : Obligations.DumpStoresRegisters := by
  refine ⟨selectedBy_dump, fun x s => ⟨fun above => checked_fault.mpr ⟨above, rfl⟩, fun within => ?_⟩⟩
  have ran := checked_next (s := s) (t := { s with mem := s.mem.writeBytes (s.ea 0) (s.regBlock x) }) |>.mpr
    ⟨within, rfl⟩
  exact ⟨_, ran, dumped_changesOnly s x, fun wf k upto => execDump_read wf ran upto⟩

/-- Settles O50: once I + x is checked the register file is the loaded one. -/
theorem loadFillsRegisters : Obligations.LoadFillsRegisters := by
  refine ⟨selectedBy_load, fun x s => ⟨fun above => checked_fault.mpr ⟨above, rfl⟩, fun within => ?_⟩⟩
  exact ⟨_, checked_next.mpr ⟨within, rfl⟩, loadedRegs_changesOnly s x,
    fun k upto => by rw [loadedRegs_reg, if_pos upto]⟩

/-- Settles O51: the load reads at the addresses the dump has written, with I as it was. -/
theorem dumpThenLoadRestores : Obligations.DumpThenLoadRestores := by
  intro x v s t wf h
  have i_kept : t.i = s.i := (exec_changesOnly h).i rfl
  have within : t.i.toNat + x.toNat ≤ 0xFFF := by rw [i_kept]; exact (checked_next.mp h).1
  refine ⟨_, checked_next.mpr ⟨within, rfl⟩, fun k upto => ?_⟩
  rw [loadedRegs_reg, if_pos upto]
  show t.mem.read (t.i.toNat + k.toNat) = s.reg k
  rw [i_kept, execDump_read wf h upto]

/-- Settles O52: the two bytes at PC are the ones the dump wrote for V[k] and V[k+1]. -/
theorem storeIsSeenByNextFetch : Obligations.StoreIsSeenByNextFetch := by
  intro x k s t wf h upto at_pc
  have x_lt := x.isLt
  have next : (k + 1#4).toNat = k.toNat + 1 := by
    rw [BitVec.toNat_add, BitVec.toNat_ofNat]; omega
  have within : s.i.toNat + x.toNat ≤ 0xFFF := (checked_next.mp h).1
  have pc_kept : t.pc = s.pc := (exec_changesOnly h).pc rfl
  have hi : t.mem.read t.pc.toNat = s.reg k := by
    rw [pc_kept, at_pc, execDump_read wf h (by omega)]
  have lo : t.mem.read (t.pc.toNat + 1) = s.reg (k + 1#4) := by
    rw [pc_kept, at_pc, Nat.add_assoc, ← next, execDump_read wf h (by omega)]
  rw [State.fetch_eq_joinBytes (by rw [pc_kept]; omega), hi, lo]

end Sys2Proof.Machine
end

section
/-! The display and the keypad (`spec/44_display.md`, `spec/45_keypad_timers.md`). -/

namespace Sys2Proof.Machine

/-! ## Drawing -/

/-- Settles O53: the screen is replaced by the blank one. -/
theorem clearZeroesTheScreen : Obligations.ClearZeroesTheScreen :=
  ⟨selectedBy_cls, fun _ s => ⟨_, rfl, setVid_changesOnly s _, Screen.cell_blank⟩⟩

/-- The cells that `DRW Vx, Vy, n` paints. -/
def Paints (s : State) (x y : Reg) (n : Nibble) (r : Fin 32) (c : Fin 64) : Prop :=
  Painted s (s.reg x).toNat (s.reg y).toNat n.toNat r c

section
variable (s : State) (x y : Reg) (n : Nibble)

/-- The sprite read at I has at most 15 rows, so the law of `drawRows` applies to it. -/
theorem afterDraw_spec :
    (∀ r c, (Paints s x y n r c → (s.afterDraw x y n).vid.cell r c = !s.vid.cell r c)
      ∧ (¬Paints s x y n r c → (s.afterDraw x y n).vid.cell r c = s.vid.cell r c))
    ∧ ((s.drawn x y n).2 = true ↔ ∃ r c, Paints s x y n r c ∧ s.vid.cell r c = true) := by
  have n_lt := n.isLt
  obtain ⟨cells, hit⟩ := drawRows_spec (s.reg x).toNat (s.mem.readBytes (s.ea 0) n.toNat) (s.reg y).toNat
    (by rw [Memory.readBytes_length]; omega) (s.vid, false)
  simp only [spriteHits_readBytes, Bool.false_eq_true, false_or] at hit
  refine ⟨fun r c => ⟨fun painted => ?_, fun unpainted => ?_⟩, hit⟩
  · exact (cells r c).trans (by simp [(spriteHits_readBytes s _ _ _ r c).mpr painted])
  · exact (cells r c).trans (by simp [mt (spriteHits_readBytes s _ _ _ r c).mp unpainted])

theorem afterDraw_cell_painted {r : Fin 32} {c : Fin 64} (h : Paints s x y n r c) :
    (s.afterDraw x y n).vid.cell r c = !s.vid.cell r c :=
  ((afterDraw_spec s x y n).1 r c).1 h

theorem afterDraw_cell_unpainted {r : Fin 32} {c : Fin 64} (h : ¬Paints s x y n r c) :
    (s.afterDraw x y n).vid.cell r c = s.vid.cell r c :=
  ((afterDraw_spec s x y n).1 r c).2 h

theorem afterDraw_vf_hit (h : ∃ r c, Paints s x y n r c ∧ s.vid.cell r c = true) :
    (s.afterDraw x y n).reg VF = 1#8 := by
  rw [State.afterDraw, reg_setReg_self, (afterDraw_spec s x y n).2.mpr h]
  rfl

theorem afterDraw_vf_clear (h : ¬∃ r c, Paints s x y n r c ∧ s.vid.cell r c = true) :
    (s.afterDraw x y n).reg VF = 0#8 := by
  rw [State.afterDraw, reg_setReg_self, Bool.eq_false_iff.mpr (mt (afterDraw_spec s x y n).2.mp h)]
  rfl

theorem afterDraw_changesOnly : ChangesOnly { regs := [VF], vid := true } s (s.afterDraw x y n) :=
  setVidVf_changesOnly s _ _

/-- A draw changes nothing that decides where it paints, unless a coordinate is in VF. -/
theorem paints_afterDraw (x_not_vf : x ≠ VF) (y_not_vf : y ≠ VF) :
    Paints (s.afterDraw x y n) x y n = Paints s x y n := by
  unfold Paints
  rw [(afterDraw_changesOnly s x y n).regs x (by simpa using x_not_vf),
    (afterDraw_changesOnly s x y n).regs y (by simpa using y_not_vf)]
  rfl

end

/-- Settles O54: the state after the draw, cell by cell and in VF. -/
theorem drawInvertsPaintedCells : Obligations.DrawInvertsPaintedCells := by
  intro x y n s within
  exact ⟨_, execDrw_next.mpr ⟨within, rfl⟩, afterDraw_changesOnly s x y n,
    fun r c => ⟨afterDraw_cell_painted s x y n, afterDraw_cell_unpainted s x y n⟩,
    afterDraw_vf_hit s x y n, afterDraw_vf_clear s x y n⟩

/-- Settles O55: both draws paint the same cells, so each cell is inverted twice or not at all; and a cell
set after the first draw on a blank screen is one that was painted. -/
theorem drawTwiceRestores : Obligations.DrawTwiceRestores := by
  intro x y n s t x_not_vf y_not_vf h
  obtain ⟨within, rfl⟩ := execDrw_next.mp h
  have same := paints_afterDraw s x y n x_not_vf y_not_vf
  refine ⟨_, execDrw_next.mpr ⟨within, rfl⟩, Screen.ext_cells fun r c => ?_, fun blank => ⟨?_, ?_⟩⟩
  · by_cases painted : Paints s x y n r c
    · rw [afterDraw_cell_painted _ x y n (by rwa [same]), afterDraw_cell_painted s x y n painted,
        Bool.not_not]
    · rw [afterDraw_cell_unpainted _ x y n (by rwa [same]), afterDraw_cell_unpainted s x y n painted]
  · exact afterDraw_vf_clear s x y n fun ⟨r, c, _, set⟩ => by simp [blank] at set
  · rintro ⟨r, c, set⟩
    refine afterDraw_vf_hit _ x y n ⟨r, c, ?_, set⟩
    rw [same]
    by_contra unpainted
    rw [afterDraw_cell_unpainted s x y n unpainted, blank] at set
    cases set

/-! ## Keys -/

/-- The key that `SKP` and `SKNP` test, for a V[x] that is a key index. -/
theorem skipOnKey_skips {s : State} {x : Reg} {k : Nibble} (index : (s.reg x).toNat = k.toNat)
    (pressed : Bool) : ∃ t, s.skipOnKey x pressed = .next t ∧ ChangesOnly { pc := true } s t
      ∧ t.pc.toNat = if s.keyDown k = pressed then (s.pc.toNat + 2) % 4096 else s.pc.toNat := by
  have k_lt := k.isLt
  have tested : (s.reg x).setWidth 4 = k := by
    apply BitVec.eq_of_toNat_eq
    rw [BitVec.toNat_setWidth, index]
    omega
  refine ⟨_, skipOnKey_next.mpr ⟨by omega, rfl⟩, ?_⟩
  rw [tested]
  exact skipIf_skips s _ beq_iff_eq

/-- Settles O56: `SKP` skips on a key that is pressed, `SKNP` on one that is not. -/
theorem keySkips : Obligations.KeySkips := by
  refine fun x ign s => ⟨fun k index => ?_, fun above => ⟨if_pos above, if_pos above⟩⟩
  exact ⟨skipOnKey_skips index true, skipOnKey_skips index false⟩

/-- Settles O57: the scan finds the least key pressed, or none and PC is rolled back. -/
theorem waitForKey : Obligations.WaitForKey := by
  refine fun x s => ⟨fun k down least => ?_, fun none_down => ?_⟩
  · have ran : execLdVxK x s = .next (s.setReg x (k.setWidth 8)) := by
      rw [execLdVxK, firstKey_eq_some down least]
    have k_lt := k.isLt
    refine ⟨_, ran, setReg_changesOnly s x _, ?_⟩
    rw [reg_setReg_self, BitVec.toNat_setWidth]
    omega
  · have ran : execLdVxK x s = .next s.rollBack := by
      rw [execLdVxK, firstKey_eq_none none_down]
    exact ⟨_, ran, rollBack_changesOnly s, rollBack_pc_toNat s⟩

end Sys2Proof.Machine
end
